-- ==== Sys2Proof/Word.lean ====
section
/-! DEFINITION. The word types of UM CORE (00_scope.md R3): a register, a memory word and an instruction
word are 32 bits, unsigned; a register field is 3 bits and names one of 8 registers; the immediate is 25
bits; the streams carry bytes. -/

namespace Sys2Proof

/-- A 32-bit unsigned word: a register, a memory word, an instruction word, a pc, a segment identifier, a
word offset or a word count (00_scope.md R3, R4). -/
abbrev Word := BitVec 32

/-- One byte of the image, of the input stream or of the output stream. -/
abbrev Byte := BitVec 8

/-- A register index, 0 to 7. Every index comes from a 3-bit field (10_state.md R13), and with this type
an index out of range does not exist (60_exceptions.md R195, 93_implementation_defined.md U3). -/
abbrev RegIdx := Fin 8

/-- The 25-bit immediate field of LOADI (30_encoding.md R63). -/
abbrev Imm := BitVec 25

/-- The word of 32 ones, 2^32 - 1: what IN writes at end-of-input (46_io.md R161). -/
abbrev allOnes : Word := 0xFFFFFFFF#32

end Sys2Proof
end

