-- ==== Sys2Proof/Syntax.lean ====
section
/-! DEFINITION. The 14 instructions of UM CORE, one constructor per row of the opcode table
(30_encoding.md R65), each with exactly the operands its meaning uses, in the order A, B, C (R70). The
fields an instruction ignores (R66, R67) are no part of it. -/

namespace Sys2Proof

/-- The um instruction set (00_scope.md R2): "a closed, tagged enumeration" (R80). -/
inductive Instr where
  /-- Opcode 0, conditional-move (41_move.md R100). -/
  | cmov (a b c : RegIdx)
  /-- Opcode 1, segment-load (42_segment_access.md R110). -/
  | sload (a b c : RegIdx)
  /-- Opcode 2, segment-store (42_segment_access.md R111). -/
  | sstore (a b c : RegIdx)
  /-- Opcode 3, add (43_arithmetic.md R121). -/
  | add (a b c : RegIdx)
  /-- Opcode 4, multiply (43_arithmetic.md R122). -/
  | mul (a b c : RegIdx)
  /-- Opcode 5, divide (43_arithmetic.md R123). -/
  | div (a b c : RegIdx)
  /-- Opcode 6, bitwise-NAND (43_arithmetic.md R124). -/
  | nand (a b c : RegIdx)
  /-- Opcode 7, halt (44_control.md R140). -/
  | halt
  /-- Opcode 8, map-segment (45_segment_alloc.md R150). -/
  | map (b c : RegIdx)
  /-- Opcode 9, unmap-segment (45_segment_alloc.md R151). -/
  | unmap (c : RegIdx)
  /-- Opcode 10, output (46_io.md R160). -/
  | out (c : RegIdx)
  /-- Opcode 11, input (46_io.md R161). -/
  | inp (c : RegIdx)
  /-- Opcode 12, load-program (44_control.md R141). -/
  | loadp (b c : RegIdx)
  /-- Opcode 13, load-immediate (41_move.md R101). -/
  | loadi (a : RegIdx) (imm : Imm)
deriving DecidableEq, Repr

end Sys2Proof
end

