-- ==== Sys2Proof/WellFormed.lean ====
section
/-! DEFINITION. Well-formedness. An `Instr` is well-formed by its types (an index is below 8, an immediate
has 25 bits; 40_fetch_decode_dispatch.md R82). What can be ill-formed is an instruction as a person writes
it, with plain numbers for operands: the assembly line of 30_encoding.md R70. R71 says what an assembler
must refuse, and that it must not truncate. -/

namespace Sys2Proof

/-- One line of assembly text (30_encoding.md R70), its operands the numbers written, whatever their size:
registers `r<n>`, the immediate of LOADI, the value of a `.word` data line. -/
inductive AsmLine where
  | cmov (a b c : Nat)
  | sload (a b c : Nat)
  | sstore (a b c : Nat)
  | add (a b c : Nat)
  | mul (a b c : Nat)
  | div (a b c : Nat)
  | nand (a b c : Nat)
  | halt
  | map (b c : Nat)
  | unmap (c : Nat)
  | out (c : Nat)
  | inp (c : Nat)
  | loadp (b c : Nat)
  | loadi (a imm : Nat)
  | word (v : Nat)
deriving DecidableEq, Repr

/-- One item of an assembly text (30_encoding.md R70): a line, or a label, or a line whose number is written
as a label's name. -/
inductive AsmItem where
  /-- `<name>:`, "stands for the word index of the next instruction in the segment being assembled". -/
  | label (name : String)
  | line (l : AsmLine)
  /-- `LOADI r<a>, <name>`. -/
  | loadiLabel (a : Nat) (name : String)
  /-- `.word <name>`. -/
  | wordLabel (name : String)
deriving DecidableEq, Repr

/-- A register number is below 8 (30_encoding.md R70, R71). -/
def regOk (n : Nat) : Bool := decide (n < 8)

/-- An immediate is at most 33554431 (30_encoding.md R70, R71). -/
def immOk (n : Nat) : Bool := decide (n ≤ 33554431)

/-- A data word is at most 0xFFFFFFFF (30_encoding.md R70). -/
def wordOk (n : Nat) : Bool := decide (n ≤ 0xFFFFFFFF)

/-- What an assembler accepts (30_encoding.md R70, R71). -/
def AsmLine.wf : AsmLine → Bool
  | .cmov a b c | .sload a b c | .sstore a b c | .add a b c | .mul a b c | .div a b c | .nand a b c =>
    regOk a && regOk b && regOk c
  | .halt => true
  | .map b c | .loadp b c => regOk b && regOk c
  | .unmap c | .out c | .inp c => regOk c
  | .loadi a imm => regOk a && immOk imm
  | .word v => wordOk v

/-- The assembly line of an instruction, without ignored bits (30_encoding.md R70). -/
def Instr.toAsm : Instr → AsmLine
  | .cmov a b c => .cmov a b c
  | .sload a b c => .sload a b c
  | .sstore a b c => .sstore a b c
  | .add a b c => .add a b c
  | .mul a b c => .mul a b c
  | .div a b c => .div a b c
  | .nand a b c => .nand a b c
  | .halt => .halt
  | .map b c => .map b c
  | .unmap c => .unmap c
  | .out c => .out c
  | .inp c => .inp c
  | .loadp b c => .loadp b c
  | .loadi a imm => .loadi a imm.toNat

/-- The check on instructions: what its assembly line must meet. Every `Instr` meets it
(`Sys2Proof.Laws.WfSyntax`). -/
def Instr.wf (i : Instr) : Bool := i.toAsm.wf

/-- A register number read as an index, refused when it is above 7 (30_encoding.md R71). -/
def reg? (n : Nat) : Option RegIdx := if h : n < 8 then some ⟨n, h⟩ else none

/-- A number read as an immediate, refused when it is above 33554431 (30_encoding.md R71). -/
def imm? (n : Nat) : Option Imm := if n ≤ 33554431 then some (BitVec.ofNat 25 n) else none

/-- The instruction an assembly line stands for; none when the assembler must refuse the line, and none
for `.word`, which is "not an instruction" (30_encoding.md R70, R71). -/
def AsmLine.instr? : AsmLine → Option Instr
  | .cmov a b c => do return .cmov (← reg? a) (← reg? b) (← reg? c)
  | .sload a b c => do return .sload (← reg? a) (← reg? b) (← reg? c)
  | .sstore a b c => do return .sstore (← reg? a) (← reg? b) (← reg? c)
  | .add a b c => do return .add (← reg? a) (← reg? b) (← reg? c)
  | .mul a b c => do return .mul (← reg? a) (← reg? b) (← reg? c)
  | .div a b c => do return .div (← reg? a) (← reg? b) (← reg? c)
  | .nand a b c => do return .nand (← reg? a) (← reg? b) (← reg? c)
  | .halt => some .halt
  | .map b c => do return .map (← reg? b) (← reg? c)
  | .unmap c => do return .unmap (← reg? c)
  | .out c => do return .out (← reg? c)
  | .inp c => do return .inp (← reg? c)
  | .loadp b c => do return .loadp (← reg? b) (← reg? c)
  | .loadi a imm => do return .loadi (← reg? a) (← imm? imm)
  | .word _ => none

end Sys2Proof
end

