-- ==== Sys2Proof/Decode.lean ====
section
/-! DEFINITION. The instruction decoder (40_fetch_decode_dispatch.md R80 to R82, R86) and, after it, the
canonical encoding (30_encoding.md R71), the assembler and the disassembler. The decoder is a pure total
function of one word. -/

namespace Sys2Proof

/-- `v[hi:lo]`, "(v >> lo) mod 2^(hi-lo+1)" (00_scope.md section 5). -/
def bits (v : Word) (hi lo : Nat) : Nat := (v.toNat >>> lo) % 2 ^ (hi - lo + 1)

/-- A 3-bit field read as a register index: "used directly as an index into the register file, with no
offset, bank or remapping" (30_encoding.md R64). -/
def regField (v : Word) (hi lo : Nat) : RegIdx := Fin.ofNat 8 (bits v hi lo)

/-- The decoder's tagged result (40_fetch_decode_dispatch.md R80): it carries A, B and C for every
three-register opcode, also for those that do not use them (R81). -/
inductive Decoded where
  | three (op : Fin 13) (a b c : RegIdx)
  | loadImm (a : RegIdx) (imm : Imm)
  /-- "An opcode value outside 0–13 is a decode failure" (R80). -/
  | invalid (w : Word)
deriving DecidableEq, Repr

/-- `Decode(w)`, bit for bit (40_fetch_decode_dispatch.md R81; fields 30_encoding.md R61 to R63). -/
def decodeWord (w : Word) : Decoded :=
  let op := bits w 31 28
  if op = 13 then .loadImm (regField w 27 25) (BitVec.ofNat 25 (bits w 24 0))
  else if h : op < 13 then .three ⟨op, h⟩ (regField w 8 6) (regField w 5 3) (regField w 2 0)
  else .invalid w

/-- The instruction a decoder result stands for: selected by the opcode alone (40_fetch_decode_dispatch.md
R86, 30_encoding.md R65), the fields it does not use dropped (R67). -/
def Decoded.instr? : Decoded → Option Instr
  | .three 0 a b c => some (.cmov a b c)
  | .three 1 a b c => some (.sload a b c)
  | .three 2 a b c => some (.sstore a b c)
  | .three 3 a b c => some (.add a b c)
  | .three 4 a b c => some (.mul a b c)
  | .three 5 a b c => some (.div a b c)
  | .three 6 a b c => some (.nand a b c)
  | .three 7 _ _ _ => some .halt
  | .three 8 _ b c => some (.map b c)
  | .three 9 _ _ c => some (.unmap c)
  | .three 10 _ _ c => some (.out c)
  | .three 11 _ _ c => some (.inp c)
  | .three 12 _ b c => some (.loadp b c)
  | .loadImm a imm => some (.loadi a imm)
  | .invalid _ => none

/-- The instruction of a word; none exactly when `decodeWord` answers `invalid`, which the step reports
under the name DECODE (40_fetch_decode_dispatch.md R85). -/
def decode (w : Word) : Option Instr := (decodeWord w).instr?

/-! ## The canonical encoding -/

/-- `(op << 28) | (A << 6) | (B << 3) | C` (30_encoding.md R71); an unused field is 0. -/
def encodeThree (op : Nat) (a b c : RegIdx) : Word :=
  (BitVec.ofNat 32 op <<< 28) ||| (BitVec.ofNat 32 a <<< 6) ||| (BitVec.ofNat 32 b <<< 3) ||| BitVec.ofNat 32 c

/-- `(13 << 28) | (A << 25) | imm` (30_encoding.md R71). -/
def encodeImm (a : RegIdx) (imm : Imm) : Word :=
  (13#32 <<< 28) ||| (BitVec.ofNat 32 a <<< 25) ||| imm.setWidth 32

/-- The opcode (30_encoding.md R65, first column). -/
def Instr.opcode : Instr → Nat
  | .cmov _ _ _ => 0
  | .sload _ _ _ => 1
  | .sstore _ _ _ => 2
  | .add _ _ _ => 3
  | .mul _ _ _ => 4
  | .div _ _ _ => 5
  | .nand _ _ _ => 6
  | .halt => 7
  | .map _ _ => 8
  | .unmap _ => 9
  | .out _ => 10
  | .inp _ => 11
  | .loadp _ _ => 12
  | .loadi _ _ => 13

/-- The canonical word of an instruction (30_encoding.md R71). -/
def encode (i : Instr) : Word :=
  match i with
  | .cmov a b c | .sload a b c | .sstore a b c | .add a b c | .mul a b c | .div a b c | .nand a b c =>
    encodeThree i.opcode a b c
  | .halt => encodeThree i.opcode 0 0 0
  | .map b c | .loadp b c => encodeThree i.opcode 0 b c
  | .unmap c | .out c | .inp c => encodeThree i.opcode 0 0 c
  | .loadi a imm => encodeImm a imm

/-- The bits of a word that mean something for an instruction: the opcode and the fields it uses
(30_encoding.md R65 "used fields", R66, R67). -/
def Instr.usedMask : Instr → Word
  | .cmov _ _ _ | .sload _ _ _ | .sstore _ _ _ | .add _ _ _ | .mul _ _ _ | .div _ _ _ | .nand _ _ _ => 0xF00001FF#32
  | .halt => 0xF0000000#32
  | .map _ _ | .loadp _ _ => 0xF000003F#32
  | .unmap _ | .out _ | .inp _ => 0xF0000007#32
  | .loadi _ _ => 0xFFFFFFFF#32

/-! ## Assembler and disassembler -/

/-- The word of an assembly line, or none where the assembler must refuse it (30_encoding.md R70, R71). -/
def assemble (l : AsmLine) : Option Word :=
  match l with
  | .word v => if wordOk v then some (BitVec.ofNat 32 v) else none
  | l => l.instr?.map encode

/-- The word index a label stands for, counted from `k` at the head of the list (30_encoding.md R70): every
item but a label is one word. R70 says "the next instruction" and calls `.word` none; that a label before a
`.word` line stands for the index of that data word, and a label at the end for the word count, is the model's
choice (DESIGN CHOICE, safe: log 23). None where the name is no label of the text. -/
def labelIndex (name : String) (k : Nat) : List AsmItem → Option Nat
  | [] => none
  | .label n :: rest => if n = name then some k else labelIndex name k rest
  | .line _ :: rest | .loadiLabel _ _ :: rest | .wordLabel _ :: rest => labelIndex name (k + 1) rest

/-- An item with the label it names replaced by its index; none for a label, which is no word, and for an
item that names no label of the text. -/
def AsmItem.line? (text : List AsmItem) : AsmItem → Option AsmLine
  | .label _ => none
  | .line l => some l
  | .loadiLabel a n => (labelIndex n 0 text).map (.loadi a)
  | .wordLabel n => (labelIndex n 0 text).map .word

/-- The words of the items of a text, in order. -/
def assembleItems (text : List AsmItem) : List AsmItem → Option (List Word)
  | [] => some []
  | .label _ :: rest => assembleItems text rest
  | item :: rest =>
    match (item.line? text).bind assemble, assembleItems text rest with
    | some w, some ws => some (w :: ws)
    | _, _ => none

/-- The segment's words of an assembly text, or none where a line is refused, a name is no label, or a label
stands twice (30_encoding.md R70, R71; the last two are the model's choice, safe: log 23). -/
def assembleText (text : List AsmItem) : Option (List Word) :=
  let names := text.filterMap fun item => match item with
    | .label n => some n
    | .line _ | .loadiLabel _ _ | .wordLabel _ => none
  if names.Nodup then assembleItems text text else none

/-- The line of a word: the instruction, or a `.word` line for a word that is none (opcode 14 or 15), for which
R71 gives no line and 95_test_vectors.md the assembly "none" (DESIGN CHOICE, safe: log 23). -/
def disassemble (w : Word) : AsmLine :=
  match decode w with
  | some i => i.toAsm
  | none => .word w.toNat

/-- The ignored bits a disassembler shows when they are not all zero (30_encoding.md R71); no bits for a word that
is no instruction, whose `.word` line shows them all (DESIGN CHOICE, safe: log 23). -/
def ignoredBits (w : Word) : Word :=
  match decode w with
  | some i => w &&& ~~~i.usedMask
  | none => 0

/-! ## The host's entry -/

/-- The instruction the decoder reads from an instruction word `w` of `nbits` bits (every instruction is
one 32-bit word, 30_encoding.md R60, so bits at and above `nbits` are 0). -/
def decodeTableWord (nbits w : Nat) : Option Instr := decode (BitVec.ofNat 32 (w % 2 ^ nbits))

end Sys2Proof
end

