-- ==== Sys2Proof/Machine/Flags.lean ====
section
/-! DEFINITION. Flags. The hardware has none: "no status flags, no condition codes and no predicate
registers" (10_state.md R16). What stands in their place is the one test R16 names, CMOV's test of a whole
register against zero. -/

namespace Sys2Proof.Machine

/-- The condition of CMOV: "the whole 32-bit value of x[C] compared with zero", neither a sign test nor a
low-bit test (41_move.md R100). -/
def condition (c : Word) : Bool := c != 0#32

end Sys2Proof.Machine
end

