-- ==== Sys2Proof/Machine/Store.lean ====
section
/-! DEFINITION. The segment store as plain data (10_state.md R17): the mapped table and the free pool. The
operations on it are Machine/Ops.lean. -/

namespace Sys2Proof.Machine

/-- One listed word of a segment: its offset and its value. The smallest addressable unit of this memory
is the 32-bit word (20_memory.md R30, R34), so a cell holds a word and no byte. -/
abbrev Cell := Nat × Word

/-- A live segment: "a pair of a word count `len` ... and an array `words` of exactly `len` words"
(10_state.md R17). The words are held as the offsets whose word is not 0, strictly rising (`Memory.wf`):
an offset below `len` that is not listed holds 0 ("words default to zero", 20_memory.md R32, R38).
DEDUCED, safe: log 11. -/
structure Segment where
  len : Word
  cells : List Cell
deriving DecidableEq, Repr

/-- The segment store (10_state.md R17). Slot number = segment identifier; `none` is the tombstone. The
head of `pool` is its top, the most recently unmapped identifier (00_scope.md R5). -/
structure Store where
  table : List (Option Segment)
  pool : List Word
deriving DecidableEq, Repr

end Sys2Proof.Machine
end

