-- ==== Sys2Proof/Config.lean ====
section
/-! DEFINITION. The parameters of the model (00_scope.md R6): `OUT_GT255` and `AllocOk`. The other two, the
image and the input, are an argument of reset (Machine/Boot.lean) and the environment's part of State. The
fixed sizes of R3 and R4 are the types of Word.lean and the bound below. -/

namespace Sys2Proof.Machine

/-- What OUT does when x[C] > 255 (00_scope.md R6, 46_io.md R160): the two policies the source allows. -/
inductive OutPolicy where
  /-- The default: the fatal error OUTPUT_RANGE, nothing emitted. -/
  | fault
  /-- Emit the low 8 bits and go on. -/
  | mask
deriving DecidableEq, Repr

/-- `AllocOk` of an implementation about which nothing is known: no body, so no proof can use a value of
it (20_memory.md R40: "must treat `AllocOk` as unknown"). -/
opaque Config.implAllocOk : Store → Word → Bool

/-- The parameter `AllocOk` (00_scope.md R6, 20_memory.md R40), a predicate of the store state and the
requested word count only, as plain data. Statements hold for every value of it. DESIGN CHOICE, safe:
log 7. -/
inductive AllocPolicy where
  /-- `dflt` for every request but the listed ones, which get the opposite answer. Every finite run of
  every predicate is a run of one of these. -/
  | finite (dflt : Bool) (exceptions : List (Store × Word))
  /-- The predicate of an implementation, unknown. -/
  | implementation
deriving DecidableEq, Repr

/-- The parameters a run is given (00_scope.md R6). They stand in State because the step has one argument;
no step changes them. -/
structure Params where
  outGt255 : OutPolicy
  allocOk : AllocPolicy
deriving DecidableEq, Repr

/-- The number of 32-bit segment identifiers: the table never has more slots (00_scope.md R4, 20_memory.md
R38, R40; decision D1 of the spec). -/
abbrev Config.maxSlots : Nat := 4294967296

end Sys2Proof.Machine
end

