-- ==== Sys2Proof/Machine/State.lean ====
section
/-! DEFINITION. The state of UM CORE: exactly the tuple of 10_state.md R10 (x, pc, store, run, io), and
beside it the arguments of a run (environment and parameters, which R10 calls "arguments, not state"). -/

namespace Sys2Proof.Machine

/-- Why reset refuses an image (60_exceptions.md R191 row 9, R206). -/
inductive BootReason where
  /-- info0 = 1: the byte length is not a multiple of 4. -/
  | badLength
  /-- info0 = 2: more than 2^32 - 1 words, or more than the storage can hold. -/
  | tooManyWords
deriving DecidableEq, Repr

/-- The fatal errors with their info words (60_exceptions.md R191). BOUNDS_REGINDEX (code 4) has no
constructor: "a model need not have the constructor" (R195; log 19). -/
inductive Cause where
  /-- Code 1: the word with opcode 14 or 15 (R192). -/
  | decode (w : Word)
  /-- Code 2: the pc and the word count of segment 0 (R193). -/
  | boundsPc (pc len : Word)
  /-- Code 3: the identifier and the offset (R194). -/
  | boundsOffset (id off : Word)
  /-- Code 5: the identifier (R196). -/
  | invalidId (id : Word)
  /-- Code 6: the dividend (R197). -/
  | divZero (dividend : Word)
  /-- Code 7: the value of x[C] (R199). -/
  | outputRange (v : Word)
  /-- Code 8: the requested word count (R198). -/
  | resourceExhausted (n : Word)
  /-- Code 9: raised by reset only (R206). -/
  | bootImage (why : BootReason)
deriving DecidableEq, Repr

/-- The fault record of FAULTED (10_state.md R18, 60_exceptions.md R200); the info words are the cause's. -/
structure FaultRecord where
  cause : Cause
  pc : Word
deriving DecidableEq, Repr

/-- The run state (10_state.md R18). -/
inductive RunState where
  | running
  | halted
  | faulted (r : FaultRecord)
deriving DecidableEq, Repr

/-- The history of the two byte streams (10_state.md R20): `out` oldest first. -/
structure Streams where
  out : List Byte
  inPos : Nat
  eofSeen : Bool
deriving DecidableEq, Repr

/-- The environment's side of the streams (00_scope.md R6 `input`; 50_interfaces.md R172, R173): the input
bytes made available since reset, whether the sequence ends after them, and whether an output byte is
accepted now. DESIGN CHOICE, safe: log 4, log 5. -/
structure Environment where
  input : List Byte
  inputEnded : Bool
  outputReady : Bool
deriving DecidableEq, Repr

/-- What the environment answers an input request with (50_interfaces.md R172). -/
inductive InputAnswer where
  | byte (b : Byte)
  | eof
deriving DecidableEq, Repr

structure State where
  /-- The register file (10_state.md R11). -/
  x : Vector Word 8
  /-- The program counter, a word index into segment 0 (10_state.md R14). -/
  pc : Word
  /-- The segment store (10_state.md R17). -/
  store : Store
  /-- The run state (10_state.md R18). -/
  run : RunState
  /-- The stream history (10_state.md R20). -/
  io : Streams
  /-- The environment's part: an argument of the run, changed only by the environment. -/
  env : Environment
  /-- The parameters: an argument of the run, never changed. -/
  params : Params
deriving DecidableEq, Repr

/-- The situations in which the machine has no next step. A fatal error is none of these: it is the next
state with `run` FAULTED (60_exceptions.md R200; log 1). -/
inductive Fault where
  /-- IN while the environment has neither a byte nor end-of-input: "the step has not happened yet"
  (46_io.md R161, 70_reset_and_hazards.md R229, U12 `stuck`). Raised by IN. Safe: the model stops, the
  hardware waits in the same state; log 3. -/
  | awaitingInput
  /-- OUT while the environment does not accept the byte: "the OUT instruction waits, as IN does"
  (50_interfaces.md R173, R229). Raised by OUT. Safe: log 4. -/
  | awaitingOutput
deriving DecidableEq, Repr

/-- What the model gives no meaning to. -/
inductive Refusal where
  /-- An instruction whose meaning is not written yet. Raised by no arm of this model. Safe. -/
  | notModelled (mnemonic : String)
deriving DecidableEq, Repr

/-- The environment of `State.reset`: the empty input, ended, and output accepted, as the spec's own
vectors assume ("input empty", 95_test_vectors.md). DESIGN CHOICE, unsafe: log 4, log 6. -/
def Environment.quiet : Environment := { input := [], inputEnded := true, outputReady := true }

/-- The parameters of `State.reset`: OUT_GT255 at the spec's default `fault` (00_scope.md R6), AllocOk
true for every request, as the spec's own vectors assume (95_test_vectors.md). DESIGN CHOICE, unsafe:
log 8, log 9. -/
def Params.standard : Params := { outGt255 := .fault, allocOk := .finite true [] }

/-- The machine right after reset (10_state.md R23) with the image of 0 bytes, which is accepted
(70_reset_and_hazards.md R222): segment 0 live with 0 words. Reset with any image is `State.boot`.
DESIGN CHOICE: log 10. -/
def State.reset : State where
  x := Vector.replicate 8 0#32
  pc := 0#32
  store := { table := [some { len := 0#32, cells := [] }], pool := [] }
  run := .running
  io := { out := [], inPos := 0, eofSeen := false }
  env := .quiet
  params := .standard

end Sys2Proof.Machine
end

