-- ==== Sys2Proof/Machine/Operands.lean ====
section
/-! DEFINITION. Operands: the register file's two operations (50_interfaces.md R175), the widenings and the
narrowing that operands and results go through, and which registers an instruction reads and writes
(10_state.md R12). -/

namespace Sys2Proof.Machine

/-- `get(index) -> word`: x[i], no side effect (10_state.md R13, 50_interfaces.md R175). -/
def State.reg (s : State) (i : RegIdx) : Word := s.x[i]

/-- `set(index, word)`: x[i] <- v, "no side effects beyond the mutation itself" (10_state.md R13). No
register is hardwired (R11). -/
def State.setReg (s : State) (i : RegIdx) (v : Word) : State := { s with x := s.x.set i v }

/-- `zext_32(imm)`: never sign-extended, shifted or scaled (30_encoding.md R64). -/
def immWord (imm : Imm) : Word := imm.setWidth 32

/-- `zext_32(b)`: bits 31 to 8 are 0 (46_io.md R161). -/
def byteWord (b : Byte) : Word := b.setWidth 32

/-- `v[7:0]` (46_io.md R160). -/
def lowByte (v : Word) : Byte := v.setWidth 8

/-- The registers an instruction reads (10_state.md R12). -/
def instrReads : Instr → List RegIdx
  | .cmov _ b c | .sload _ b c | .add _ b c | .mul _ b c | .div _ b c | .nand _ b c => [b, c]
  | .sstore a b c => [a, b, c]
  | .halt | .inp _ | .loadi _ _ => []
  | .map _ c | .unmap c | .out c => [c]
  | .loadp b c => [b, c]

/-- The register an instruction may write, at most one (10_state.md R12, 40_fetch_decode_dispatch.md R88). -/
def instrWrites : Instr → Option RegIdx
  | .cmov a _ _ | .sload a _ _ | .add a _ _ | .mul a _ _ | .div a _ _ | .nand a _ _ | .loadi a _ => some a
  | .map b _ => some b
  | .inp c => some c
  | .sstore _ _ _ | .halt | .unmap _ | .out _ | .loadp _ _ => none

end Sys2Proof.Machine
end

