-- ==== Sys2Proof/Machine/Ops.lean ====
section
/-! DEFINITION. The named operations: a segment's words, the five operations of the segment store
(20_memory.md R36 to R42), fetch (40_fetch_decode_dispatch.md R84), error entry (60_exceptions.md R200), the
pc's advance (R87) and the input answer (50_interfaces.md R172). An operation of the store "either
completes, changing the state as written, or raises a fatal error and changes nothing": it answers
`.ok` or `.error` with the cause. -/

namespace Sys2Proof.Machine

/-! ## The words of one segment -/

/-- The word at an offset: the listed one, 0 where none is listed (20_memory.md R38). -/
def cellRead : List Cell → Nat → Word
  | [], _ => 0#32
  | (k, v) :: rest, i => if k = i then v else cellRead rest i

/-- The list with the word at one offset replaced; a word 0 is not listed. -/
def cellWrite : List Cell → Nat → Word → List Cell
  | [], i, v => if v = 0#32 then [] else [(i, v)]
  | (k, u) :: rest, i, v =>
    if k < i then (k, u) :: cellWrite rest i v
    else if k = i then (if v = 0#32 then rest else (i, v) :: rest)
    else if v = 0#32 then (k, u) :: rest else (i, v) :: (k, u) :: rest

/-- The cells of a sequence of words that starts at an offset. -/
def cellsOf : Nat → List Word → List Cell
  | _, [] => []
  | k, w :: ws => if w = 0#32 then cellsOf (k + 1) ws else (k, w) :: cellsOf (k + 1) ws

/-- The canonical form of a cell list: offsets strictly rising from `lo`, below `hi`, no word 0. -/
def cellsWf (lo hi : Nat) : List Cell → Bool
  | [] => true
  | (k, v) :: rest => decide (lo ≤ k) && decide (k < hi) && (v != 0#32) && cellsWf (k + 1) hi rest

/-- A segment's word at an offset. -/
def Segment.word (g : Segment) (off : Word) : Word := cellRead g.cells off.toNat

/-- A segment with the word at one offset replaced; the word count stays (20_memory.md R32, R37). -/
def Segment.setWord (g : Segment) (off v : Word) : Segment := { g with cells := cellWrite g.cells off.toNat v }

/-- A new segment of n words, all 0 (20_memory.md R38). -/
def Segment.zeroed (n : Word) : Segment := { len := n, cells := [] }

/-- The segment that holds a sequence of words, in order from offset 0 (70_reset_and_hazards.md R221). -/
def Segment.ofWords (ws : List Word) : Segment := { len := BitVec.ofNat 32 ws.length, cells := cellsOf 0 ws }

/-- The canonical form of a segment. -/
def Segment.wf (g : Segment) : Bool := cellsWf 0 g.len.toNat g.cells

/-! ## The store -/

/-- The canonical form of memory: every live segment's cells are in it, so that equal memories are equal
data (log 11). -/
def Memory.wf (st : Store) : Bool := st.table.all fun slot => slot.all Segment.wf

/-- The live segment an identifier names, none for a tombstone and for an identifier never assigned
(20_memory.md R33). -/
def Store.segment? (st : Store) (id : Word) : Option Segment := st.table[id.toNat]?.join

/-- `Live(id)` (20_memory.md R33). -/
def Store.live (st : Store) (id : Word) : Bool := (st.segment? id).isSome

/-- The store with one slot of the table replaced. -/
def Store.setSlot (st : Store) (id : Word) (slot : Option Segment) : Store :=
  { st with table := st.table.set id.toNat slot }

/-- `AllocOk(store, n)` (20_memory.md R40). -/
def AllocPolicy.admits (p : AllocPolicy) (st : Store) (n : Word) : Bool :=
  match p with
  | .finite dflt exceptions => if (st, n) ∈ exceptions then !dflt else dflt
  | .implementation => Config.implAllocOk st n

/-- `MemRead((id, off), 1)`: the identifier check comes before the offset check (20_memory.md R36). -/
def memRead (st : Store) (id off : Word) : Except Cause Word :=
  match st.segment? id with
  | none => .error (.invalidId id)
  | some g => if off.toNat < g.len.toNat then .ok (g.word off) else .error (.boundsOffset id off)

/-- `MemWrite((id, off), 1, v)`: that one word and nothing else (20_memory.md R37). -/
def memWrite (st : Store) (id off v : Word) : Except Cause Store :=
  match st.segment? id with
  | none => .error (.invalidId id)
  | some g =>
    if off.toNat < g.len.toNat then .ok (st.setSlot id (some (g.setWord off v))) else .error (.boundsOffset id off)

/-- `Allocate(n)` (20_memory.md R38): the identifier and the store after. The top of the pool if there is
one, else a new slot at the end of the table; RESOURCE_EXHAUSTED per R40. -/
def allocate (p : AllocPolicy) (st : Store) (n : Word) : Except Cause (Word × Store) :=
  if p.admits st n then
    match st.pool with
    | id :: rest => .ok (id, { st.setSlot id (some (.zeroed n)) with pool := rest })
    | [] =>
      if st.table.length < Config.maxSlots then
        .ok (BitVec.ofNat 32 st.table.length, { st with table := st.table ++ [some (.zeroed n)] })
      else .error (.resourceExhausted n)
  else .error (.resourceExhausted n)

/-- `Deallocate(id)` (20_memory.md R41): identifier 0 is refused although slot 0 is live
(90_conflicts.md C5). -/
def deallocate (st : Store) (id : Word) : Except Cause Store :=
  if id = 0#32 then .error (.invalidId 0#32)
  else if st.live id then .ok { st.setSlot id none with pool := id :: st.pool }
  else .error (.invalidId id)

/-- `ReplaceProgram(id)` (20_memory.md R42): slot 0 becomes a copy of segment id; liveness is checked
before AllocOk (D19), and AllocOk sees the old segment 0 still held (D4). Identifier 0 never reaches it
(44_control.md R141); for it the store is unchanged, as R42 allows. -/
def replaceProgram (p : AllocPolicy) (st : Store) (id : Word) : Except Cause Store :=
  if id = 0#32 then .ok st
  else
    match st.segment? id with
    | none => .error (.invalidId id)
    | some g => if p.admits st g.len then .ok (st.setSlot 0#32 (some g)) else .error (.resourceExhausted g.len)

/-! ## Updates of State -/

/-- The pc set to a target. -/
def State.setPc (s : State) (t : Word) : State := { s with pc := t }

/-- The store replaced. -/
def State.setStore (s : State) (st : Store) : State := { s with store := st }

/-- The run state replaced. -/
def State.setRun (s : State) (r : RunState) : State := { s with run := r }

/-- One byte appended to the output (10_state.md R20). -/
def State.emit (s : State) (b : Byte) : State := { s with io := { s.io with out := s.io.out ++ [b] } }

/-- One input byte consumed (10_state.md R20). -/
def State.consume (s : State) : State := { s with io := { s.io with inPos := s.io.inPos + 1 } }

/-- End-of-input reported (10_state.md R20). -/
def State.noteEof (s : State) : State := { s with io := { s.io with eofSeen := true } }

/-- `pc <- pc + 1` (40_fetch_decode_dispatch.md R87). It wraps only where no run reaches (10_state.md R15;
log 15). -/
def State.advance (s : State) : State := s.setPc (s.pc + 1#32)

/-! ## How an instruction ends -/

/-- What a meaning answers. -/
abbrev Result := Host.Outcome State Fault Refusal

/-- An instruction other than LOADP and HALT completes: the pc moves to the next word
(40_fetch_decode_dispatch.md R87). -/
def completed (s : State) : Result := .next s.advance

/-- `raise E(info)`, error entry (60_exceptions.md R200): only `run` changes, to FAULTED with the cause and
the pc of the faulting instruction. There is no handler and no return (R203); only reset leaves FAULTED
(`State.boot`). Log 1. -/
def raise (c : Cause) (s : State) : Result := .next (s.setRun (.faulted { cause := c, pc := s.pc }))

/-- Go on with what an operation of the store answers, or raise its error (50_interfaces.md R176: "the
engine turns the error into the fatal error of the same name"). -/
def orRaise {α : Type} (s : State) (r : Except Cause α) (k : α → Result) : Result :=
  match r with
  | .error c => raise c s
  | .ok a => k a

/-! ## Fetch and the input interface -/

/-- Fetch: `read_word(0, pc)` with the bounds failure reported as BOUNDS_PC (40_fetch_decode_dispatch.md
R84, 50_interfaces.md R176). Slot 0 is live in every reachable state (10_state.md R22); elsewhere the read's
own INVALID_ID stands (log 14). -/
def fetch (s : State) : Except Cause Word :=
  match s.store.segment? 0#32 with
  | none => .error (.invalidId 0#32)
  | some g => if s.pc.toNat < g.len.toNat then .ok (g.word s.pc) else .error (.boundsPc s.pc g.len)

/-- The environment's answer to an input request (46_io.md R161, 50_interfaces.md R172): the byte at
`inPos`, `Eof` when the sequence has ended there, none while neither is available. Once `Eof` has been
reported every answer is `Eof` (10_state.md R20, D10). -/
def State.inputAnswer (s : State) : Option InputAnswer :=
  if s.io.eofSeen then some .eof
  else
    match s.env.input[s.io.inPos]? with
    | some b => some (.byte b)
    | none => if s.env.inputEnded then some .eof else none

end Sys2Proof.Machine
end

