-- ==== Sys2Proof/Machine/Arithmetic.lean ====
section
/-! DEFINITION. Integer arithmetic and logic: ADD, MUL, DIV and NAND (43_arithmetic.md). Operands and
results are natural numbers below 2^32; the exact result is computed and its low 32 bits kept (R120). -/

namespace Sys2Proof.Machine

/-- `(m + n) mod 2^32` (43_arithmetic.md R121). -/
def addWord (m n : Word) : Word := BitVec.ofNat 32 ((m.toNat + n.toNat) % 4294967296)

/-- `(m * n) mod 2^32` (43_arithmetic.md R122). -/
def mulWord (m n : Word) : Word := BitVec.ofNat 32 ((m.toNat * n.toNat) % 4294967296)

/-- `n div d`, the floor of the exact quotient, unsigned, for d not 0 (43_arithmetic.md R123). -/
def divWord (n d : Word) : Word := BitVec.ofNat 32 (n.toNat / d.toNat)

/-- `~(m AND n)` (43_arithmetic.md R124). -/
def nandWord (m n : Word) : Word := ~~~(m &&& n)

/-- The common shape of ADD, MUL and NAND: x[A] := f(x[B], x[C]) (43_arithmetic.md R120: "Each result
depends on the two source values only"). -/
def binary (f : Word → Word → Word) (a b c : RegIdx) (s : State) : Result :=
  completed (s.setReg a (f (s.reg b) (s.reg c)))

/-- ADD (43_arithmetic.md R121). -/
def execAdd (a b c : RegIdx) (s : State) : Result := binary addWord a b c s

/-- MUL (43_arithmetic.md R122). -/
def execMul (a b c : RegIdx) (s : State) : Result := binary mulWord a b c s

/-- DIV: DIV_ZERO when the divisor is 0, whatever the dividend (43_arithmetic.md R123). -/
def execDiv (a b c : RegIdx) (s : State) : Result :=
  if s.reg c = 0#32 then raise (.divZero (s.reg b)) s else binary divWord a b c s

/-- NAND (43_arithmetic.md R124). -/
def execNand (a b c : RegIdx) (s : State) : Result := binary nandWord a b c s

end Sys2Proof.Machine
end

