-- ==== Sys2Proof/Machine/Control.lean ====
section
/-! DEFINITION. Control: HALT and LOADP (44_control.md). -/

namespace Sys2Proof.Machine

/-- HALT: run := HALTED and nothing else, the pc included (44_control.md R140; the pc by decision D16 of
the spec). -/
def execHalt (s : State) : Result := .next (s.setRun .halted)

/-- LOADP: with x[B] = 0 a pure jump, the store untouched and AllocOk not consulted; else segment 0
becomes a copy of segment x[B]; then pc := x[C], not incremented and not checked (44_control.md R141). -/
def execLoadp (b c : RegIdx) (s : State) : Result :=
  if s.reg b = 0#32 then .next (s.setPc (s.reg c))
  else orRaise s (replaceProgram s.params.allocOk s.store (s.reg b)) fun st => .next ((s.setStore st).setPc (s.reg c))

end Sys2Proof.Machine
end

