-- ==== Sys2Proof/Machine/Move.lean ====
section
/-! DEFINITION. Register moves: CMOV and LOADI (41_move.md). -/

namespace Sys2Proof.Machine

/-- CMOV: if x[C] is not 0, x[A] := x[B] (41_move.md R100). -/
def execCmov (a b c : RegIdx) (s : State) : Result :=
  completed (if condition (s.reg c) then s.setReg a (s.reg b) else s)

/-- LOADI: x[A] := zext_32(imm) (41_move.md R101). -/
def execLoadi (a : RegIdx) (imm : Imm) (s : State) : Result :=
  completed (s.setReg a (immWord imm))

end Sys2Proof.Machine
end

