-- ==== Sys2Proof/Machine/SegmentAccess.lean ====
section
/-! DEFINITION. Segment load and store: SLOAD and SSTORE (42_segment_access.md). -/

namespace Sys2Proof.Machine

/-- SLOAD: x[A] := segment[x[B]][x[C]] (42_segment_access.md R110). -/
def execSload (a b c : RegIdx) (s : State) : Result :=
  orRaise s (memRead s.store (s.reg b) (s.reg c)) fun v => completed (s.setReg a v)

/-- SSTORE: segment[x[A]][x[B]] := x[C] (42_segment_access.md R111). -/
def execSstore (a b c : RegIdx) (s : State) : Result :=
  orRaise s (memWrite s.store (s.reg a) (s.reg b) (s.reg c)) fun st => completed (s.setStore st)

end Sys2Proof.Machine
end

