-- ==== Sys2Proof/Machine/SegmentAlloc.lean ====
section
/-! DEFINITION. Segment allocation: MAP and UNMAP (45_segment_alloc.md). -/

namespace Sys2Proof.Machine

/-- MAP: x[B] := the identifier of a new segment of x[C] words, all 0 (45_segment_alloc.md R150). -/
def execMap (b c : RegIdx) (s : State) : Result :=
  orRaise s (allocate s.params.allocOk s.store (s.reg c)) fun r => completed ((s.setStore r.2).setReg b r.1)

/-- UNMAP: segment x[C] is destroyed, x[C] becomes the top of the pool (45_segment_alloc.md R151). -/
def execUnmap (c : RegIdx) (s : State) : Result :=
  orRaise s (deallocate s.store (s.reg c)) fun st => completed (s.setStore st)

end Sys2Proof.Machine
end

