-- ==== Sys2Proof/Machine/Streaming.lean ====
section
/-! DEFINITION. Byte output and input: OUT and IN (46_io.md). -/

namespace Sys2Proof.Machine

/-- OUT hands one byte to the environment, or waits while it is not accepted (50_interfaces.md R173;
log 4). -/
def sendByte (b : Byte) (s : State) : Result :=
  if s.env.outputReady then completed (s.emit b) else .fault .awaitingOutput

/-- OUT: above 255 the parameter OUT_GT255 decides, fault or the low byte (46_io.md R160). -/
def execOut (c : RegIdx) (s : State) : Result :=
  if 255 < (s.reg c).toNat then
    match s.params.outGt255 with
    | .fault => raise (.outputRange (s.reg c)) s
    | .mask => sendByte (lowByte (s.reg c)) s
  else sendByte (lowByte (s.reg c)) s

/-- IN: the next input byte zero-extended, all ones at end-of-input; no step while the environment has not
answered (46_io.md R161; log 3). -/
def execIn (c : RegIdx) (s : State) : Result :=
  match s.inputAnswer with
  | some (.byte b) => completed (s.consume.setReg c (byteWord b))
  | some .eof => completed (s.noteEof.setReg c allOnes)
  | none => .fault .awaitingInput

end Sys2Proof.Machine
end

