-- ==== Sys2Proof/Machine/Step.lean ====
section
/-! DEFINITION. One step of the machine (40_fetch_decode_dispatch.md R91): fetch, decode, dispatch and
execute. -/

namespace Sys2Proof.Machine

/-- The step. In RUNNING: fetch (R84), decode (R85, raising DECODE), dispatch (R86). In HALTED and FAULTED
"same state, nothing changes" (R83; log 2). -/
def step (s : State) : Host.Outcome State Fault Refusal :=
  match s.run with
  | .running =>
    orRaise s (fetch s) fun w =>
      match decode w with
      | none => raise (.decode w) s
      | some i => exec i s
  | .halted | .faulted _ => .next s

/-- The state with one instruction word placed where the step fetches: slot 0 live and long enough, the
word written at the pc, run RUNNING; a pc of 2^32 - 1, which no segment reaches (10_state.md R15), becomes
0. It stands for the load of a program at reset (log 10). -/
def State.withFetchWord (s : State) (nbits w : Nat) : State :=
  let pc := if s.pc = allOnes then 0#32 else s.pc
  let old := (s.store.segment? 0#32).getD (.zeroed 0#32)
  let seg0 : Segment := { old with len := if pc.toNat < old.len.toNat then old.len else pc + 1#32 }
  let word := BitVec.ofNat 32 (w % 2 ^ nbits)
  { s with
    pc := pc
    store := { s.store with table := some (seg0.setWord pc word) :: s.store.table.drop 1 }
    run := .running }

end Sys2Proof.Machine
end

