-- ==== Sys2Proof/Machine/Boot.lean ====
section
/-! DEFINITION. Reset and boot (70_reset_and_hazards.md R220 to R222, 50_interfaces.md R171): the image of
bytes becomes segment 0, or is refused. -/

namespace Sys2Proof.Machine

/-- `(b_0 << 24) | (b_1 << 16) | (b_2 << 8) | b_3` (70_reset_and_hazards.md R221). -/
def wordOfBytes (b0 b1 b2 b3 : Byte) : Word :=
  (byteWord b0 <<< 24) ||| (byteWord b1 <<< 16) ||| (byteWord b2 <<< 8) ||| byteWord b3

/-- The words of an image, none when its length is not a multiple of 4: no partial word is padded and no
byte is dropped (70_reset_and_hazards.md R221, R222). -/
def wordsOfImage : List Byte → Option (List Word)
  | [] => some []
  | b0 :: b1 :: b2 :: b3 :: rest => (wordsOfImage rest).map (wordOfBytes b0 b1 b2 b3 :: ·)
  | _ => none

/-- The boot check and its result (70_reset_and_hazards.md R222): the words of segment 0, or the reason of
the refusal. The image of 0 bytes "is accepted"; any other image the storage cannot hold is one AllocOk refuses
on the store that holds nothing (DEDUCED, safe: log 13). Of an image that has a bad length and is too large the length is reported, where the
spec gives no order (DESIGN CHOICE, unsafe: log 24). -/
def loadImage (p : AllocPolicy) (image : List Byte) : Except BootReason (List Word) :=
  match wordsOfImage image with
  | none => .error .badLength
  | some ws =>
    if ws = [] ∨ ws.length < Config.maxSlots ∧ p.admits { table := [], pool := [] } (BitVec.ofNat 32 ws.length) then
      .ok ws
    else .error .tooManyWords

/-- The state every reset ends in, given segment 0 and the run state (10_state.md R23): all of the previous
run is lost (70_reset_and_hazards.md R220). -/
def bootState (p : Params) (e : Environment) (seg0 : Segment) (r : RunState) : State where
  x := Vector.replicate 8 0#32
  pc := 0#32
  store := { table := [some seg0], pool := [] }
  run := r
  io := { out := [], inPos := 0, eofSeen := false }
  env := e
  params := p

/-- Reset with an image (70_reset_and_hazards.md R220, R222): RUNNING with segment 0 holding the image's
words, or FAULTED(BOOT_IMAGE). Segment 0 of a refused boot is the segment of 0 words (DESIGN CHOICE, safe:
log 12). `e` is what the environment will deliver from then on (R228). -/
def State.boot (p : Params) (e : Environment) (image : List Byte) : State :=
  match loadImage p.allocOk image with
  | .ok ws => bootState p e (.ofWords ws) .running
  | .error why => bootState p e (.zeroed 0#32) (.faulted { cause := .bootImage why, pc := 0#32 })

end Sys2Proof.Machine
end

