-- ==== Sys2Proof/Machine/Environment.lean ====
section
/-! DEFINITION. What the environment may do, and nothing else (50_interfaces.md R178): answer input
requests, take output bytes, assert reset. A move happens between two steps (log 18). It never touches a
register, the pc, a segment, the table or the pool, but for reset, which starts a new run. -/

namespace Sys2Proof.Machine

/-- The environment's moves (50_interfaces.md R172, R173, R178). -/
inductive EnvMove where
  /-- One more input byte is available. -/
  | deliver (b : Byte)
  /-- The input sequence ends after the bytes delivered so far. -/
  | endInput
  /-- The environment begins or ceases to accept output bytes. -/
  | setOutputReady (r : Bool)
  /-- Reset is asserted with an image; the new run gets a new input (70_reset_and_hazards.md R228). -/
  | reset (image : List Byte) (e : Environment)
deriving DecidableEq, Repr

/-- The state after a move. After the end of the input no byte can be delivered: "must answer `Eof` only
after the last byte, and must keep answering `Eof` from then on" (50_interfaces.md R172; log 22). -/
def envMove (m : EnvMove) (s : State) : State :=
  match m with
  | .deliver b => if s.env.inputEnded then s else { s with env := { s.env with input := s.env.input ++ [b] } }
  | .endInput => { s with env := { s.env with inputEnded := true } }
  | .setOutputReady r => { s with env := { s.env with outputReady := r } }
  | .reset image e => State.boot s.params e image

end Sys2Proof.Machine
end

