-- ==== Sys2Proof/Machine/Status.lean ====
section
/-! DEFINITION. The status interface (50_interfaces.md R174): STATUS, FAULT_PC and FAULT_INFO, read-only
for the environment, out of reach of any instruction, "a pure function of the `run` component of the state"
(10_state.md R19). Names, codes and info words: 60_exceptions.md R191. -/

namespace Sys2Proof.Machine

/-- The numeric cause codes (60_exceptions.md R191); 4 is never produced (R195). -/
def Cause.code : Cause → Nat
  | .decode _ => 1
  | .boundsPc _ _ => 2
  | .boundsOffset _ _ => 3
  | .invalidId _ => 5
  | .divZero _ => 6
  | .outputRange _ => 7
  | .resourceExhausted _ => 8
  | .bootImage _ => 9

/-- info0 (60_exceptions.md R191). -/
def Cause.info0 : Cause → Word
  | .decode w => w
  | .boundsPc pc _ => pc
  | .boundsOffset id _ => id
  | .invalidId id => id
  | .divZero n => n
  | .outputRange v => v
  | .resourceExhausted n => n
  | .bootImage .badLength => 1#32
  | .bootImage .tooManyWords => 2#32

/-- info1 (60_exceptions.md R191). -/
def Cause.info1 : Cause → Word
  | .boundsPc _ len => len
  | .boundsOffset _ off => off
  | .decode _ | .invalidId _ | .divZero _ | .outputRange _ | .resourceExhausted _ | .bootImage _ => 0#32

/-- The RUN field of STATUS, bits 1:0 (10_state.md R19). -/
def RunState.runField : RunState → Nat
  | .running => 0
  | .halted => 1
  | .faulted _ => 2

/-- The CAUSE field of STATUS, bits 5:2 (10_state.md R19): 0 unless FAULTED. -/
def RunState.causeField : RunState → Nat
  | .running | .halted => 0
  | .faulted r => r.cause.code

/-- STATUS: RUN in bits 1:0, CAUSE in bits 5:2, bits 31:6 read as zero (10_state.md R19). -/
def State.status (s : State) : Word :=
  (BitVec.ofNat 32 s.run.causeField <<< 2) ||| BitVec.ofNat 32 s.run.runField

/-- FAULT_PC, a 32-bit output: the pc of the faulting instruction, 0 for BOOT_IMAGE (10_state.md R19,
60_exceptions.md R191). While RUN is not 2, where it is not valid, it holds 0: only error entry gives it another
value (DESIGN CHOICE, unsafe: log 17). -/
def State.faultPc (s : State) : Word :=
  match s.run with
  | .faulted r => r.pc
  | .running | .halted => 0#32

/-- FAULT_INFO: the two info words, 0 and 0 where there is no error (60_exceptions.md R191, row 0). -/
def State.faultInfo (s : State) : Word × Word :=
  match s.run with
  | .faulted r => (r.cause.info0, r.cause.info1)
  | .running | .halted => (0#32, 0#32)

end Sys2Proof.Machine
end

