-- ==== Sys2Proof/Safety.lean ====
section
/-! DEFINITION. What counts as a sound state and as a good end of a run, in the terms the claims use:
the invariants of 10_state.md R22 and R20, the reachable states, and the end of a run
(40_fetch_decode_dispatch.md R92, 60_exceptions.md R202). -/

namespace Sys2Proof.Machine

/-- Slot 0 is live: "Identifier 0 is always mapped for the lifetime of the machine" (10_state.md R22
item 2). -/
abbrev Store.ZeroLive (st : Store) : Prop := st.live 0#32 = true

/-- Every identifier in the pool has a slot, and it is a tombstone (10_state.md R22 items 1 and 3). -/
abbrev Store.PoolIsTombstones (st : Store) : Prop := ∀ id ∈ st.pool, st.table[id.toNat]? = some none

/-- Every tombstone's identifier is in the pool (10_state.md R22 item 4). -/
abbrev Store.TombstonesInPool (st : Store) : Prop :=
  ∀ k < st.table.length, st.table[k]? = some none → BitVec.ofNat 32 k ∈ st.pool

/-- The store's invariants (10_state.md R22 items 1 to 4 and 6) and memory's canonical form. Item 5, the
number of live segments, follows from them. -/
abbrev Store.Inv (st : Store) : Prop :=
  st.ZeroLive ∧ st.PoolIsTombstones ∧ st.TombstonesInPool ∧ st.pool.Nodup ∧
    st.table.length ≤ Config.maxSlots ∧ Memory.wf st = true

/-- The streams' invariants: no byte is consumed that was not delivered, and end-of-input is reported only
after the last byte (10_state.md R20, 50_interfaces.md R172). -/
abbrev State.StreamsInv (s : State) : Prop :=
  s.io.inPos ≤ s.env.input.length ∧
    (s.io.eofSeen = true → s.env.inputEnded = true ∧ s.io.inPos = s.env.input.length)

/-- The pc of a faulted machine is that of the faulting word (10_state.md R15; 0 for BOOT_IMAGE). -/
def State.faultPcAgrees (s : State) : Bool :=
  match s.run with
  | .faulted r => r.pc == s.pc
  | .running | .halted => true

/-- The machine's invariant. -/
abbrev State.Inv (s : State) : Prop := s.store.Inv ∧ s.StreamsInv ∧ s.faultPcAgrees = true

/-- The states a machine can be in: after a reset with any image, any parameters and any environment, any
number of steps and environment moves (40_fetch_decode_dispatch.md R83, 50_interfaces.md R178). -/
inductive Reachable : State → Prop where
  | boot (p : Params) (e : Environment) (image : List Byte) : Reachable (State.boot p e image)
  | step (s t : State) : Reachable s → Machine.step s = .next t → Reachable t
  | env (m : EnvMove) (s : State) : Reachable s → Reachable (envMove m s)

/-- The run has ended well: "exactly when `run` = HALTED" (40_fetch_decode_dispatch.md R92). -/
def State.endedWell (s : State) : Bool := s.run == .halted

/-- The run is over (40_fetch_decode_dispatch.md R92). -/
def State.over (s : State) : Bool := s.run != .running

/-- The result of a run that is over: the bytes emitted and the number of input bytes consumed
(40_fetch_decode_dispatch.md R92). -/
def State.result (s : State) : List Byte × Nat := (s.io.out, s.io.inPos)

/-- The number of live segments (10_state.md R22 item 5). -/
def Store.liveCount (st : Store) : Nat := st.table.countP Option.isSome

end Sys2Proof.Machine
end

