-- ==== Sys2Proof/Certificates/Slice0/Obligations.lean ====
section
/-! DEFINITION. The statements for the provers. Each docstring names the rule of spec/ it is about; where a
clause is a decision or an inference the spec marks as its own (D<n>, derived), or the model's own choice
(log <n>), it says so. -/

namespace Sys2Proof.Claims

open Sys2Proof.Machine

/-- Field A of a three-register word, `w[8:6]` (30_encoding.md R62). -/
def fieldA (w : Word) : RegIdx := (w.extractLsb' 6 3).toFin

/-- Field B, `w[5:3]`. -/
def fieldB (w : Word) : RegIdx := (w.extractLsb' 3 3).toFin

/-- Field C, `w[2:0]`. -/
def fieldC (w : Word) : RegIdx := (w.extractLsb' 0 3).toFin

/-- Every word with the row's match under the mask 0xF0000000 is the row's instruction, its operands the
fields A, B, C (30_encoding.md R65). -/
def IsRow (matchWord : Word) (i : RegIdx → RegIdx → RegIdx → Instr) : Prop :=
  ∀ w : Word, w &&& 0xF0000000#32 = matchWord → decode w = some (i (fieldA w) (fieldB w) (fieldC w))

/-- The state after the entry of a fatal error: only the run state differs (60_exceptions.md R200). -/
def afterFault (c : Cause) (s : State) : State := { s with run := .faulted { cause := c, pc := s.pc } }

/-- The instruction a running machine executes next, if the fetch and the decoding succeed. -/
def nextInstr (s : State) : Option Instr :=
  match memRead s.store 0#32 s.pc with
  | .ok w => decode w
  | .error _ => none

/-- The identifier the next MAP returns: the top of the pool, else the table's length (10_state.md R21). -/
def nextId (st : Store) : Word := st.pool.head?.getD (BitVec.ofNat 32 st.table.length)

end Sys2Proof.Claims

open Sys2Proof Sys2Proof.Machine Sys2Proof.Claims

/-! ## The decoder and the encoding -/

/-- Decoding the canonical word of any instruction gives the instruction back, every operand at every value
(30_encoding.md R71, 40_fetch_decode_dispatch.md R81, R82). -/
def Obligations.DecodeOfEncodeIsTheInstruction : Prop :=
  ∀ i : Instr, decode (encode i) = some i

/-- The canonical word of a decoded word is the word with its ignored bits and unused fields cleared (R82,
marked derived there; R71). -/
def Obligations.EncodeOfDecodeClearsIgnoredBits : Prop :=
  ∀ (w : Word) (i : Instr), decode w = some i → encode i = w &&& i.usedMask

/-- `Decode(w)`, bit for bit (R81): opcode 13, opcodes 0 to 12, opcodes 14 and 15. -/
def Obligations.DecoderReadsTheFieldsBitForBit : Prop :=
  ∀ w : Word,
    (w.extractLsb' 28 4 = 13#4 → decodeWord w = .loadImm (w.extractLsb' 25 3).toFin (w.extractLsb' 0 25)) ∧
    (∀ op : Fin 13, w.extractLsb' 28 4 = BitVec.ofNat 4 op.val →
      decodeWord w = .three op (fieldA w) (fieldB w) (fieldC w)) ∧
    (w.extractLsb' 28 4 = 14#4 ∨ w.extractLsb' 28 4 = 15#4 → decodeWord w = .invalid w)

/-- The words that are no instruction are 0xE0000000 to 0xFFFFFFFF, no more and no fewer (R68, R82). -/
def Obligations.OnlyOpcodes14And15AreRefused : Prop :=
  ∀ w : Word, decode w = none ↔ 0xE0000000 ≤ w.toNat

/-- Bits 27 to 9 of a three-register word take part in nothing (R66): the word decodes as the word with
zeros there, is no error, and a machine that fetches it runs that instruction. -/
def Obligations.IgnoredBitsChangeNothing : Prop :=
  ∀ w : Word, w.toNat < 0xD0000000 →
    ∃ i, decode w = some i ∧ decode (w &&& 0xF00001FF#32) = some i ∧
      ∀ s : State, s.run = .running → memRead s.store 0#32 s.pc = .ok w → step s = exec i s

/-- The register fields an instruction does not use change nothing either (R67, derived there but for
HALT): two words that agree on the used bits are the same instruction. -/
def Obligations.UnusedFieldsChangeNothing : Prop :=
  ∀ (w w' : Word) (i : Instr), decode w = some i → w' &&& i.usedMask = w &&& i.usedMask → decode w' = some i

/-- Words written out from the spec's own vectors (95_test_vectors.md section 2.1), one per format corner. -/
def Obligations.VectorWordsDecode : Prop :=
  decode 0x00000053#32 = some (.cmov 1 2 3) ∧ decode 0x1000008B#32 = some (.sload 2 1 3) ∧
  decode 0x2000009C#32 = some (.sstore 2 3 4) ∧ decode 0x3ABCDE53#32 = some (.add 1 2 3) ∧
  decode 0x7FFFFFFF#32 = some .halt ∧ decode 0x80000013#32 = some (.map 2 3) ∧
  decode 0x9000003F#32 = some (.unmap 7) ∧ decode 0xB0000007#32 = some (.inp 7) ∧
  decode 0xCFFFFFF5#32 = some (.loadp 6 5) ∧ decode 0xD3000053#32 = some (.loadi 1 16777299#25) ∧
  decode 0xEFFFFFFF#32 = none ∧ decode 0xF0000000#32 = none

/-- An assembler refuses exactly the lines with a register above 7, an immediate above 33554431 or a data
word above 32 bits, and gives every instruction's line its canonical word (R70, R71; the syntax is decision
D12 of the spec). -/
def Obligations.AssemblerRefusesWhatDoesNotFit : Prop :=
  (∀ l : AsmLine, assemble l = none ↔ l.wf = false) ∧ ∀ i : Instr, assemble i.toAsm = some (encode i)

/-! ## Reset and boot -/

/-- Image to words (R221): an image of 4n bytes is n words, each of four bytes, the first the most
significant; in segment 0 of a machine that accepts it they stand in file order from offset 0. -/
def Obligations.ImageIsBigEndianWords : Prop :=
  ∀ (image : List Byte) (n : Nat), image.length = 4 * n →
    ∃ ws : List Word, wordsOfImage image = some ws ∧ ws.length = n ∧
      (∀ (k : Nat) (b0 b1 b2 b3 : Byte), image[4 * k]? = some b0 → image[4 * k + 1]? = some b1 →
        image[4 * k + 2]? = some b2 → image[4 * k + 3]? = some b3 → ws[k]? = some (b0 ++ b1 ++ b2 ++ b3)) ∧
      ∀ (p : Params) (e : Environment), loadImage p.allocOk image = .ok ws →
        (∃ g, (State.boot p e image).store.segment? 0#32 = some g ∧ g.len.toNat = n) ∧
        ∀ (k : Nat) (w : Word), ws[k]? = some w →
          memRead (State.boot p e image).store 0#32 (BitVec.ofNat 32 k) = .ok w

/-- The reset state with an accepted image (R23; the table's length and the empty pool are derived there,
STATUS is decision D9): nothing is unspecified. -/
def Obligations.ResetEstablishesTheResetState : Prop :=
  ∀ (p : Params) (e : Environment) (image : List Byte) (ws : List Word), loadImage p.allocOk image = .ok ws →
    let s := State.boot p e image
    (∀ r : RegIdx, s.reg r = 0#32) ∧ s.pc = 0#32 ∧ s.store.table.length = 1 ∧ s.store.pool = [] ∧
    s.run = .running ∧ s.io.out = [] ∧ s.io.inPos = 0 ∧ s.io.eofSeen = false ∧ s.status = 0#32

/-- The boot check (R222, R206; decisions D3 and D15): a length that is no multiple of 4, or too many words,
ends in FAULTED(BOOT_IMAGE) with info0 1 or 2, and a step changes nothing; every other image, that of 0 bytes
among them, is accepted and the machine runs. MODEL'S CHOICE: that a faulted machine has a step, which answers
the same state, is log 2, what the storage can hold is log 13, that a bad length is reported before too many
words is log 24. -/
def Obligations.IllFormedImagesAreRefused : Prop :=
  ∀ (p : Params) (e : Environment) (image : List Byte),
    let s := State.boot p e image
    (image.length % 4 ≠ 0 →
      s.run = .faulted { cause := .bootImage .badLength, pc := 0#32 } ∧ s.faultInfo = (1#32, 0#32) ∧ step s = .next s) ∧
    (∀ n, image.length = 4 * n →
      (4294967296 ≤ n ∨ 0 < n ∧ p.allocOk.admits { table := [], pool := [] } (BitVec.ofNat 32 n) = false →
        s.run = .faulted { cause := .bootImage .tooManyWords, pc := 0#32 } ∧ s.faultInfo = (2#32, 0#32) ∧
          step s = .next s) ∧
      (n < 4294967296 → n = 0 ∨ p.allocOk.admits { table := [], pool := [] } (BitVec.ofNat 32 n) = true →
        s.run = .running))

/-- The machine's reset state is the reset with the image of 0 bytes, and meets the invariant. MODEL'S
CHOICE: the empty image, the empty ended input and the standard parameters are log 4, log 6, log 8, log 9
and log 10. -/
def Obligations.ResetIsTheEmptyBootAndMeetsTheInvariant : Prop :=
  State.reset = State.boot .standard .quiet [] ∧ State.reset.Inv

/-! ## The step -/

/-- A running machine whose word at the pc decodes to an instruction executes it, and the step adds nothing
around it (R91). -/
def Obligations.StepRunsTheDecodedInstruction : Prop :=
  ∀ (s : State) (w : Word) (i : Instr), s.run = .running → memRead s.store 0#32 s.pc = .ok w → decode w = some i →
    step s = exec i s

/-- A pc at or beyond the word count of segment 0 is BOUNDS_PC (R84, R193; FAULTED is decision D7). -/
def Obligations.FetchOutsideSegmentZeroFaults : Prop :=
  ∀ (s : State) (g : Segment), s.run = .running → s.store.segment? 0#32 = some g → g.len.toNat ≤ s.pc.toNat →
    step s = .next (afterFault (.boundsPc s.pc g.len) s)

/-- A fetched word with opcode 14 or 15 is DECODE with the word recorded (R85, R192; FAULTED is decision
D7). -/
def Obligations.IllegalWordsFault : Prop :=
  ∀ (s : State) (w : Word), s.run = .running → memRead s.store 0#32 s.pc = .ok w → 0xE0000000 ≤ w.toNat →
    step s = .next (afterFault (.decode w) s)

/-- HALTED and FAULTED: nothing changes but by reset (R18, R83; that the step answers the same state is
log 2). -/
def Obligations.TerminalStatesStay : Prop :=
  ∀ s : State, s.run ≠ .running → step s = .next s

/-- The step never refuses, and it has no next state in two situations only: IN without an answer and OUT
held back (R161, R173, R229; log 3, log 4). MODEL'S CHOICE: that HALTED and FAULTED, where the spec performs no
step (R18, R91, R203), have a next state, the same one, is log 2. -/
def Obligations.StepStopsOnlyToWait : Prop :=
  ∀ s : State,
    (∃ t, step s = .next t) ∨
    (∃ c, s.run = .running ∧ nextInstr s = some (.inp c) ∧ s.inputAnswer = none ∧ step s = .fault .awaitingInput) ∨
    (∃ c, s.run = .running ∧ nextInstr s = some (.out c) ∧ s.env.outputReady = false ∧ step s = .fault .awaitingOutput)

/-- The host's placement of an instruction word: the very next step runs it, on any canonical memory (log
10). -/
def Obligations.PlacedWordIsRun : Prop :=
  ∀ (s : State) (nbits w : Nat) (i : Instr), Memory.wf s.store = true → decodeTableWord nbits w = some i →
    step (s.withFetchWord nbits w) = exec i (s.withFetchWord nbits w)

/-! ## What each instruction does -/

/-- CMOV (R100): encoding, and x[A] := x[B] exactly when x[C] is not 0. -/
def Obligations.CmovMovesWhenNotZero : Prop :=
  IsRow 0x00000000#32 .cmov ∧
  ∀ (a b c : RegIdx) (s : State),
    (s.x[c] ≠ 0#32 → exec (.cmov a b c) s = .next { s with x := s.x.set a s.x[b], pc := s.pc + 1#32 }) ∧
    (s.x[c] = 0#32 → exec (.cmov a b c) s = .next { s with pc := s.pc + 1#32 })

/-- LOADI (R101): encoding, and x[A] := the immediate, zero-extended. -/
def Obligations.LoadiWritesTheImmediate : Prop :=
  (∀ w : Word, w &&& 0xF0000000#32 = 0xD0000000#32 →
    decode w = some (.loadi (w.extractLsb' 25 3).toFin (w.extractLsb' 0 25))) ∧
  ∀ (a : RegIdx) (imm : Imm) (s : State), ∃ v : Word, v.toNat = imm.toNat ∧
    exec (.loadi a imm) s = .next { s with x := s.x.set a v, pc := s.pc + 1#32 }

/-- ADD (R121): encoding, and x[A] := (x[B] + x[C]) mod 2^32. -/
def Obligations.AddIsModulo : Prop :=
  IsRow 0x30000000#32 .add ∧
  ∀ (a b c : RegIdx) (s : State), ∃ v : Word, v.toNat = (s.x[b].toNat + s.x[c].toNat) % 2 ^ 32 ∧
    exec (.add a b c) s = .next { s with x := s.x.set a v, pc := s.pc + 1#32 }

/-- MUL (R122): encoding, and x[A] := (x[B] * x[C]) mod 2^32. -/
def Obligations.MulIsModulo : Prop :=
  IsRow 0x40000000#32 .mul ∧
  ∀ (a b c : RegIdx) (s : State), ∃ v : Word, v.toNat = (s.x[b].toNat * s.x[c].toNat) % 2 ^ 32 ∧
    exec (.mul a b c) s = .next { s with x := s.x.set a v, pc := s.pc + 1#32 }

/-- NAND (R124): encoding, and each result bit is 1 unless both source bits are 1. -/
def Obligations.NandIsBitwise : Prop :=
  IsRow 0x60000000#32 .nand ∧
  ∀ (a b c : RegIdx) (s : State), ∃ v : Word, (∀ k < 32, v.getLsbD k = !(s.x[b].getLsbD k && s.x[c].getLsbD k)) ∧
    exec (.nand a b c) s = .next { s with x := s.x.set a v, pc := s.pc + 1#32 }

/-- DIV (R123): encoding; the floor of the exact quotient; DIV_ZERO with the dividend for a divisor 0
(FAULTED is decision D7). -/
def Obligations.DivFloorsOrFaults : Prop :=
  IsRow 0x50000000#32 .div ∧
  ∀ (a b c : RegIdx) (s : State),
    (s.x[c] ≠ 0#32 → ∃ v : Word, v.toNat = s.x[b].toNat / s.x[c].toNat ∧
      exec (.div a b c) s = .next { s with x := s.x.set a v, pc := s.pc + 1#32 }) ∧
    (s.x[c] = 0#32 → exec (.div a b c) s = .next (afterFault (.divZero s.x[b]) s))

/-- SLOAD (R110): encoding; the word at (x[B], x[C]); INVALID_ID before BOUNDS_OFFSET (FAULTED is decision
D7, the order D19). -/
def Obligations.SloadReadsOneWord : Prop :=
  IsRow 0x10000000#32 .sload ∧
  ∀ (a b c : RegIdx) (s : State),
    (∀ g, s.store.segment? s.x[b] = some g → s.x[c].toNat < g.len.toNat →
      exec (.sload a b c) s = .next { s with x := s.x.set a (g.word s.x[c]), pc := s.pc + 1#32 }) ∧
    (s.store.live s.x[b] = false → exec (.sload a b c) s = .next (afterFault (.invalidId s.x[b]) s)) ∧
    (∀ g, s.store.segment? s.x[b] = some g → g.len.toNat ≤ s.x[c].toNat →
      exec (.sload a b c) s = .next (afterFault (.boundsOffset s.x[b] s.x[c]) s))

/-- SSTORE (R111): encoding; all 32 bits of x[C] at (x[A], x[B]); INVALID_ID before BOUNDS_OFFSET (FAULTED
is decision D7, the order D19). -/
def Obligations.SstoreWritesOneWord : Prop :=
  IsRow 0x20000000#32 .sstore ∧
  ∀ (a b c : RegIdx) (s : State),
    (∀ g, s.store.segment? s.x[a] = some g → s.x[b].toNat < g.len.toNat →
      exec (.sstore a b c) s =
        .next { s with store := s.store.setSlot s.x[a] (some (g.setWord s.x[b] s.x[c])), pc := s.pc + 1#32 }) ∧
    (s.store.live s.x[a] = false → exec (.sstore a b c) s = .next (afterFault (.invalidId s.x[a]) s)) ∧
    (∀ g, s.store.segment? s.x[a] = some g → g.len.toNat ≤ s.x[b].toNat →
      exec (.sstore a b c) s = .next (afterFault (.boundsOffset s.x[a] s.x[b]) s))

/-- HALT (R140): every word 0x70000000 to 0x7FFFFFFF; only the run state changes (that the pc stays is
decision D16 of the spec). -/
def Obligations.HaltOnlyHalts : Prop :=
  IsRow 0x70000000#32 (fun _ _ _ => .halt) ∧ ∀ s : State, exec .halt s = .next { s with run := .halted }

/-- LOADP (R141): encoding; a pure jump when x[B] is 0; else segment 0 becomes what segment x[B] is, if the
storage can hold the copy (AllocOk is decision D4); the pc is x[C] itself, unchecked. -/
def Obligations.LoadpJumpsOrLoads : Prop :=
  IsRow 0xC0000000#32 (fun _ b c => .loadp b c) ∧
  ∀ (b c : RegIdx) (s : State),
    (s.x[b] = 0#32 → exec (.loadp b c) s = .next { s with pc := s.x[c] }) ∧
    (∀ g, s.x[b] ≠ 0#32 → s.store.segment? s.x[b] = some g → s.params.allocOk.admits s.store g.len = true →
      exec (.loadp b c) s =
        .next { s with store := { s.store with table := s.store.table.set 0 (some g) }, pc := s.x[c] })

/-- MAP (R150): encoding; the top of the pool is reused, else the table grows by one slot; the new segment
has x[C] words, all 0; x[B] holds its identifier (AllocOk, the bound and LIFO are decisions D4, D1 and
D5). -/
def Obligations.MapCreatesAZeroedSegment : Prop :=
  IsRow 0x80000000#32 (fun _ b c => .map b c) ∧
  ∀ (b c : RegIdx) (s : State), s.params.allocOk.admits s.store s.x[c] = true →
    (∀ id rest, s.store.pool = id :: rest →
      exec (.map b c) s =
        .next { s with
                x := s.x.set b id
                store := { table := s.store.table.set id.toNat (some { len := s.x[c], cells := [] }), pool := rest }
                pc := s.pc + 1#32 }) ∧
    (s.store.pool = [] → s.store.table.length < 4294967296 →
      exec (.map b c) s =
        .next { s with
                x := s.x.set b (BitVec.ofNat 32 s.store.table.length)
                store := { table := s.store.table ++ [some { len := s.x[c], cells := [] }], pool := [] }
                pc := s.pc + 1#32 })

/-- UNMAP (R151): encoding; the slot becomes a tombstone and the identifier the top of the pool. -/
def Obligations.UnmapDestroysTheSegment : Prop :=
  IsRow 0x90000000#32 (fun _ _ c => .unmap c) ∧
  ∀ (c : RegIdx) (s : State), s.x[c] ≠ 0#32 → s.store.live s.x[c] = true →
    exec (.unmap c) s =
      .next { s with
              store := { table := s.store.table.set s.x[c].toNat none, pool := s.x[c] :: s.store.pool }
              pc := s.pc + 1#32 }

/-- The errors of UNMAP, LOADP and MAP (R151, R141, R150; R191, R196, R198; FAULTED is decision D7,
RESOURCE_EXHAUSTED D1 and D4): identifier 0 and an identifier not live for UNMAP, an identifier not live
before RESOURCE_EXHAUSTED for LOADP, RESOURCE_EXHAUSTED for MAP; nothing else changes. -/
def Obligations.StoreErrorsFault : Prop :=
  ∀ (b c : RegIdx) (s : State),
    (s.x[c] = 0#32 ∨ s.store.live s.x[c] = false → exec (.unmap c) s = .next (afterFault (.invalidId s.x[c]) s)) ∧
    (s.x[b] ≠ 0#32 → s.store.live s.x[b] = false → exec (.loadp b c) s = .next (afterFault (.invalidId s.x[b]) s)) ∧
    (∀ g, s.x[b] ≠ 0#32 → s.store.segment? s.x[b] = some g → s.params.allocOk.admits s.store g.len = false →
      exec (.loadp b c) s = .next (afterFault (.resourceExhausted g.len) s)) ∧
    (s.params.allocOk.admits s.store s.x[c] = false ∨ s.store.pool = [] ∧ 4294967296 ≤ s.store.table.length →
      exec (.map b c) s = .next (afterFault (.resourceExhausted s.x[c]) s))

/-- OUT with x[C] at most 255 (R160): encoding; exactly one byte, equal to x[C], joins the output, when the
environment accepts it (back-pressure is R173; log 4). -/
def Obligations.OutEmitsOneByte : Prop :=
  IsRow 0xA0000000#32 (fun _ _ c => .out c) ∧
  ∀ (c : RegIdx) (s : State), s.x[c].toNat ≤ 255 → s.env.outputReady = true → ∃ b : Byte, b.toNat = s.x[c].toNat ∧
    exec (.out c) s = .next { s with io := { s.io with out := s.io.out ++ [b] }, pc := s.pc + 1#32 }

/-- OUT with x[C] above 255 (R160, R199; the parameter OUT_GT255 is decision D6, FAULTED decision D7, log 1):
under `fault` OUTPUT_RANGE and nothing emitted; under `mask` the low 8 bits, when the environment accepts the
byte (back-pressure is R173; log 4). -/
def Obligations.OutAbove255FollowsThePolicy : Prop :=
  ∀ (c : RegIdx) (s : State), 255 < s.x[c].toNat →
    (s.params.outGt255 = .fault → exec (.out c) s = .next (afterFault (.outputRange s.x[c]) s)) ∧
    (s.params.outGt255 = .mask → s.env.outputReady = true → ∃ b : Byte, b.toNat = s.x[c].toNat % 256 ∧
      exec (.out c) s = .next { s with io := { s.io with out := s.io.out ++ [b] }, pc := s.pc + 1#32 })

/-- IN (R161): encoding; the next byte, zero-extended, consumed; all ones at end-of-input, and again at
every later IN (zero extension and stickiness are decision D10). -/
def Obligations.InReadsOneByteOrEnd : Prop :=
  IsRow 0xB0000000#32 (fun _ _ c => .inp c) ∧
  ∀ (c : RegIdx) (s : State),
    (∀ b, s.io.eofSeen = false → s.env.input[s.io.inPos]? = some b → ∃ v : Word, v.toNat = b.toNat ∧
      exec (.inp c) s =
        .next { s with x := s.x.set c v, io := { s.io with inPos := s.io.inPos + 1 }, pc := s.pc + 1#32 }) ∧
    (s.io.eofSeen = true ∨ s.env.input.length ≤ s.io.inPos ∧ s.env.inputEnded = true →
      exec (.inp c) s =
        .next { s with x := s.x.set c 0xFFFFFFFF#32, io := { s.io with eofSeen := true }, pc := s.pc + 1#32 })

/-- IN with no answer and OUT with no acceptance have no step yet (R161, R173, R229; U12; log 3, log 4). -/
def Obligations.StreamsWaitForTheEnvironment : Prop :=
  ∀ (c : RegIdx) (s : State),
    (s.io.eofSeen = false → s.env.input.length ≤ s.io.inPos → s.env.inputEnded = false →
      exec (.inp c) s = .fault .awaitingInput) ∧
    (s.env.outputReady = false → s.x[c].toNat ≤ 255 ∨ s.params.outGt255 = .mask →
      exec (.out c) s = .fault .awaitingOutput)

/-! ## Frames -/

/-- CMOV, SLOAD, ADD, MUL, DIV, NAND and LOADI leave every register but A unchanged, and all of memory, the
table, the pool, both streams and the arguments of the run, also when they fault (R12, R31, R89; decision
D7). -/
def Obligations.RegisterInstructionsFrame : Prop :=
  ∀ (a b c : RegIdx) (imm : Imm) (s t : State),
    ∀ i ∈ [Instr.cmov a b c, .sload a b c, .add a b c, .mul a b c, .div a b c, .nand a b c, .loadi a imm],
      exec i s = .next t →
        (∀ r : RegIdx, r ≠ a → t.x[r] = s.x[r]) ∧ (∀ id off, memRead t.store id off = memRead s.store id off) ∧
        t.store = s.store ∧ t.io = s.io ∧ t.env = s.env ∧ t.params = s.params

/-- SSTORE changes the word at (x[A], x[B]) and nothing else: no register, no other word, no word count, not
the pool or the table's length, no stream (R37, R111; on a fault decision D7). In canonical memory the word stored reads back,
unless the instruction faulted. -/
def Obligations.SstoreFrame : Prop :=
  ∀ (a b c : RegIdx) (s t : State), exec (.sstore a b c) s = .next t →
    t.x = s.x ∧ t.io = s.io ∧ t.env = s.env ∧ t.params = s.params ∧ t.store.pool = s.store.pool ∧
    t.store.table.length = s.store.table.length ∧
    (∀ id, (t.store.segment? id).map Segment.len = (s.store.segment? id).map Segment.len) ∧
    (∀ id off, (id, off) ≠ (s.x[a], s.x[b]) → memRead t.store id off = memRead s.store id off) ∧
    (Memory.wf s.store = true → t.run = s.run → s.run = .running → memRead t.store s.x[a] s.x[b] = .ok s.x[c])

/-- MAP, UNMAP and LOADP leave every segment unchanged but the one created, the one destroyed and segment 0;
every register but MAP's B; both streams and the arguments of the run. UNMAP and LOADP keep the table's
length, LOADP the pool (R38, R41, R42, R12; on a fault decision D7). -/
def Obligations.AllocationInstructionsFrame : Prop :=
  ∀ (b c : RegIdx) (s t : State),
    (exec (.map b c) s = .next t →
      (∀ r : RegIdx, r ≠ b → t.x[r] = s.x[r]) ∧ t.io = s.io ∧ t.env = s.env ∧ t.params = s.params ∧
      ∀ id, id ≠ nextId s.store → t.store.segment? id = s.store.segment? id) ∧
    (exec (.unmap c) s = .next t →
      t.x = s.x ∧ t.io = s.io ∧ t.env = s.env ∧ t.params = s.params ∧
      t.store.table.length = s.store.table.length ∧
      ∀ id, id ≠ s.x[c] → t.store.segment? id = s.store.segment? id) ∧
    (exec (.loadp b c) s = .next t →
      t.x = s.x ∧ t.io = s.io ∧ t.env = s.env ∧ t.params = s.params ∧ t.store.pool = s.store.pool ∧
      t.store.table.length = s.store.table.length ∧
      ∀ id, id ≠ 0#32 → t.store.segment? id = s.store.segment? id)

/-- HALT, OUT and IN touch no memory; HALT and OUT no register, IN only C; OUT leaves the input side, IN the
output side; HALT leaves both streams and the pc (R140, R160, R161; the pc after HALT is decision D16 of the
spec, log 21, a faulting OUT decision D7). -/
def Obligations.StreamInstructionsFrame : Prop :=
  ∀ (c : RegIdx) (s t : State),
    (exec .halt s = .next t →
      t.x = s.x ∧ t.pc = s.pc ∧ t.store = s.store ∧ t.io = s.io ∧ t.env = s.env ∧ t.params = s.params) ∧
    (exec (.out c) s = .next t →
      t.x = s.x ∧ t.store = s.store ∧ t.io.inPos = s.io.inPos ∧ t.io.eofSeen = s.io.eofSeen ∧ t.env = s.env ∧
      t.params = s.params) ∧
    (exec (.inp c) s = .next t →
      (∀ r : RegIdx, r ≠ c → t.x[r] = s.x[r]) ∧ t.store = s.store ∧ t.run = s.run ∧ t.io.out = s.io.out ∧
      t.env = s.env ∧ t.params = s.params)

/-! ## Rules about the whole machine -/

/-- No instruction writes a register other than the one its row of R12 names, whatever it answers (on a
fault decision D7). -/
def Obligations.OnlyTheNamedRegisterIsWritten : Prop :=
  ∀ (i : Instr) (s t : State) (r : RegIdx), exec i s = .next t → instrWrites i ≠ some r → t.x[r] = s.x[r]

/-- No instruction's result depends on a register its row of R12 does not name as read: changing the others
changes neither the pc, the store, the run state, the streams nor the value written. -/
def Obligations.OnlyTheNamedRegistersAreRead : Prop :=
  ∀ (i : Instr) (s t : State) (y : Vector Word 8), (∀ r ∈ instrReads i, y[r] = s.x[r]) → exec i s = .next t →
    ∃ t', exec i { s with x := y } = .next t' ∧ t'.pc = t.pc ∧ t'.store = t.store ∧ t'.run = t.run ∧ t'.io = t.io ∧
      ∀ r : RegIdx, t.x[r] ≠ s.x[r] → t'.x[r] = t.x[r]

/-- A step that raises a fatal error writes nothing but the run state, and the record holds the pc of the
faulting word (R89 and R200, which rest on decision D7). -/
def Obligations.FaultsChangeOnlyTheRunState : Prop :=
  ∀ (s t : State) (r : FaultRecord), s.run = .running → step s = .next t → t.run = .faulted r →
    t = { s with run := .faulted r } ∧ r.pc = s.pc

/-- A step ends in HALTED exactly when it executes HALT (R83). -/
def Obligations.OnlyHaltEndsWell : Prop :=
  ∀ s t : State, s.run = .running → step s = .next t → (t.run = .halted ↔ nextInstr s = some .halt)

/-- The pc after a step (R87): the target after a LOADP that completes, pc + 1 after every other instruction
that completes, unchanged after HALT (D16) and after a fatal error (D7). -/
def Obligations.PcMovesAsTheTableSays : Prop :=
  ∀ s t : State, s.run = .running → step s = .next t →
    (t.run ≠ .running → t.pc = s.pc) ∧
    (t.run = .running → ∃ i, nextInstr s = some i ∧
      (∀ b c, i = .loadp b c → t.pc = s.x[c]) ∧ ((∀ b c, i ≠ .loadp b c) → t.pc = s.pc + 1#32))

/-- Only OUT appends to the output, one byte; only IN advances the input position, by one, and only IN
reports end-of-input, for good; nothing is ever removed (R20). -/
def Obligations.StreamsMoveOnlyByOutAndIn : Prop :=
  ∀ s t : State, step s = .next t →
    (t.io.out = s.io.out ∨ ∃ c b, s.run = .running ∧ nextInstr s = some (.out c) ∧ t.io.out = s.io.out ++ [b]) ∧
    (t.io.inPos = s.io.inPos ∨ ∃ c, s.run = .running ∧ nextInstr s = some (.inp c) ∧ t.io.inPos = s.io.inPos + 1) ∧
    (t.io.eofSeen = s.io.eofSeen ∨ ∃ c, s.run = .running ∧ nextInstr s = some (.inp c) ∧ t.io.eofSeen = true)

/-- No step changes the arguments of the run: parameters, input, the environment's readiness (R6, R10). -/
def Obligations.ArgumentsOfTheRunNeverChange : Prop :=
  ∀ s t : State, step s = .next t → t.env = s.env ∧ t.params = s.params

/-- STATUS, FAULT_PC and FAULT_INFO (R19 and R191, decisions D8 and D9): RUN in bits 1 to 0, CAUSE in bits 5
to 2, the rest 0; for every cause the code and the two info words of its row of R191, and the recorded pc. -/
def Obligations.StatusShowsTheRunState : Prop :=
  ∀ s : State,
    (s.run = .running → s.status = 0#32) ∧ (s.run = .halted → s.status = 1#32) ∧
    ∀ (pc v u : Word),
      ∀ row ∈ [(Cause.decode v, 1, v, 0#32), (.boundsPc v u, 2, v, u), (.boundsOffset v u, 3, v, u),
          (.invalidId v, 5, v, 0#32), (.divZero v, 6, v, 0#32), (.outputRange v, 7, v, 0#32),
          (.resourceExhausted v, 8, v, 0#32), (.bootImage .badLength, 9, 1#32, 0#32),
          (.bootImage .tooManyWords, 9, 2#32, 0#32)],
        s.run = .faulted { cause := row.1, pc := pc } →
          s.status.extractLsb' 0 2 = 2#2 ∧ s.status.extractLsb' 2 4 = BitVec.ofNat 4 row.2.1 ∧
          s.status.extractLsb' 6 26 = 0#26 ∧ s.faultPc = pc ∧ s.faultInfo = (row.2.2.1, row.2.2.2)

/-! ## Invariants -/

/-- Every step keeps the invariant (R22 items 1 to 4 and 6, R20, and memory's canonical form, log 11). -/
def Obligations.StepKeepsTheInvariant : Prop :=
  ∀ s t : State, s.Inv → step s = .next t → t.Inv

/-- Reset with any image, accepted or refused, meets the invariant (R22, R23; log 12 for the refused). -/
def Obligations.EveryBootMeetsTheInvariant : Prop :=
  ∀ (p : Params) (e : Environment) (image : List Byte), (State.boot p e image).Inv

/-- Every move of the environment keeps the invariant and, but for reset, leaves registers, pc, store, run
state and streams alone (R178). MODEL'S CHOICE: that the streams' invariant survives a delivery after the end of
the input rests on the move ignoring it, log 22 (R172, decision D10). -/
def Obligations.EnvironmentMovesKeepTheInvariant : Prop :=
  ∀ (m : EnvMove) (s : State), s.Inv →
    (envMove m s).Inv ∧
    ((∀ image e, m ≠ .reset image e) →
      (envMove m s).x = s.x ∧ (envMove m s).pc = s.pc ∧ (envMove m s).store = s.store ∧
      (envMove m s).run = s.run ∧ (envMove m s).io = s.io ∧ (envMove m s).params = s.params)

/-- Every reachable state meets the invariant: any image, any parameters, any environment, any steps and
moves (R22: "in every reachable state"). MODEL'S CHOICE: the environment's moves ignore a delivery after the end
of the input, log 22 (R172, decision D10). -/
def Obligations.EveryReachableStateMeetsTheInvariant : Prop :=
  ∀ s : State, Reachable s → s.Inv

/-- The number of live segments is the table's length less the pool's (R22 item 5, derived there). -/
def Obligations.LiveSegmentsAndPoolFillTheTable : Prop :=
  ∀ st : Store, st.Inv → st.liveCount + st.pool.length = st.table.length

/-- The pc never wraps (R15, derived there): where a step of a running machine goes on at pc + 1, the sum
fits in 32 bits. -/
def Obligations.PcNeverWraps : Prop :=
  ∀ s t : State, s.Inv → s.run = .running → step s = .next t → (∀ b c, nextInstr s ≠ some (.loadp b c)) →
    t.run = .running → t.pc.toNat = s.pc.toNat + 1

/-! ## The segment store -/

/-- MemWrite (R37): the identifier check before the offset check, else that one word changes and nothing
else: no other word of any segment, no word count, not the pool, not the table's length. -/
def Obligations.MemWriteChangesOneWord : Prop :=
  ∀ (st : Store) (id off v : Word), Memory.wf st = true →
    (st.live id = false → memWrite st id off v = .error (.invalidId id)) ∧
    (∀ g, st.segment? id = some g → g.len.toNat ≤ off.toNat → memWrite st id off v = .error (.boundsOffset id off)) ∧
    (∀ g, st.segment? id = some g → off.toNat < g.len.toNat → ∃ st', memWrite st id off v = .ok st' ∧
      memRead st' id off = .ok v ∧
      (∀ id' off', (id', off') ≠ (id, off) → memRead st' id' off' = memRead st id' off') ∧
      (∀ id', (st'.segment? id').map Segment.len = (st.segment? id').map Segment.len) ∧ st'.pool = st.pool ∧
      st'.table.length = st.table.length)

/-- Deallocate (R41): identifier 0 and identifiers not live are refused; else the slot is a tombstone, the
identifier the top of the pool, the table's length and every other segment unchanged, and the very next
Allocate that completes reuses the identifier (R38 and R5, LIFO by decision D5, log 21) for a fresh, all-zero
segment. -/
def Obligations.DeallocateMakesATombstone : Prop :=
  ∀ (st : Store) (id : Word),
    (id = 0#32 ∨ st.live id = false → deallocate st id = .error (.invalidId id)) ∧
    (id ≠ 0#32 → st.live id = true → ∃ st', deallocate st id = .ok st' ∧
      st'.table[id.toNat]? = some none ∧ st'.pool = id :: st.pool ∧ st'.table.length = st.table.length ∧
      (∀ id', id' ≠ id → st'.segment? id' = st.segment? id') ∧
      ∀ (p : AllocPolicy) (n id' : Word) (st'' : Store), allocate p st' n = .ok (id', st'') →
        id' = id ∧ st''.segment? id = some { len := n, cells := [] })

/-- What Allocate returns (R38, R39, R21; derived there, LIFO by decision D5): the next identifier of R21, never 0, never one
that is live; the new segment has n words, each 0, whatever the identifier named before. -/
def Obligations.AllocatedSegmentsAreFreshAndZero : Prop :=
  ∀ (p : AllocPolicy) (st st' : Store) (n id : Word), st.Inv → allocate p st n = .ok (id, st') →
    id = nextId st ∧ id ≠ 0#32 ∧ st.live id = false ∧ (∃ g, st'.segment? id = some g ∧ g.len = n) ∧
    ∀ off : Word, off.toNat < n.toNat → memRead st' id off = .ok 0#32

/-- Last in, first out (R5, decision D5; R39): after UNMAP a and UNMAP b, MAP returns b, then a, then what
it would have returned without the two. -/
def Obligations.FreedIdentifiersAreReusedLastFirst : Prop :=
  ∀ (p : AllocPolicy) (st s1 s2 s3 s4 s5 : Store) (a b n1 n2 n3 i1 i2 i3 : Word), st.Inv →
    deallocate st a = .ok s1 → deallocate s1 b = .ok s2 →
    allocate p s2 n1 = .ok (i1, s3) → allocate p s3 n2 = .ok (i2, s4) → allocate p s4 n3 = .ok (i3, s5) →
    i1 = b ∧ i2 = a ∧ i3 = nextId st

/-- A store to the next word of the program is what the next step fetches and runs (R48, R46). -/
def Obligations.StoresToTheProgramAreFetched : Prop :=
  ∀ (s t : State) (a b c : RegIdx) (i : Instr), s.Inv → s.run = .running → nextInstr s = some (.sstore a b c) →
    s.x[a] = 0#32 → s.x[b] = s.pc + 1#32 → decode s.x[c] = some i → step s = .next t → t.run = .running →
    step t = exec i t

/-- A loaded program is an independent copy (R42, R141): after LOADP of segment k, segment 0 reads as
segment k did, and a store to either leaves every word of the other as it was. -/
def Obligations.LoadedProgramsAreIndependentCopies : Prop :=
  ∀ (p : AllocPolicy) (st st' st'' : Store) (k off v : Word), k ≠ 0#32 → 0 < st.table.length →
    replaceProgram p st k = .ok st' →
    (∀ o, memRead st' 0#32 o = match memRead st k o with
      | .ok w => .ok w
      | .error _ => .error (.boundsOffset 0#32 o)) ∧
    (∀ o, memRead st' k o = memRead st k o) ∧
    (memWrite st' k off v = .ok st'' → ∀ o, memRead st'' 0#32 o = memRead st' 0#32 o) ∧
    (memWrite st' 0#32 off v = .ok st'' → ∀ o, memRead st'' k o = memRead st' k o)
end

