-- ==== Sys2Proof/Laws/Cells.lean ====
section
/-! SUPPORT. The words of one segment: reading after writing, and the canonical form of a cell list. -/

namespace Sys2Proof.Machine

/-- A cell list whose offsets all start above an offset reads 0 there. -/
theorem cellRead_below {lo hi : Nat} {cs : List Cell} {i : Nat} (h : cellsWf lo hi cs = true) (hi' : i < lo) :
    cellRead cs i = 0#32 := by
  induction cs generalizing lo with
  | nil => rfl
  | cons c rest ih =>
    obtain ⟨k, v⟩ := c
    simp only [cellsWf, Bool.and_eq_true, decide_eq_true_eq] at h
    obtain ⟨⟨⟨hlo, -⟩, -⟩, hrest⟩ := h
    have : k ≠ i := by omega
    simp [cellRead, this, ih hrest (by omega)]

/-- A canonical list stays canonical under a lower lower bound. -/
theorem cellsWf_mono {lo lo' hi : Nat} {cs : List Cell} (h : cellsWf lo hi cs = true) (hle : lo' ≤ lo) :
    cellsWf lo' hi cs = true := by
  cases cs with
  | nil => rfl
  | cons c rest =>
    obtain ⟨k, v⟩ := c
    simp only [cellsWf, Bool.and_eq_true, decide_eq_true_eq] at h ⊢
    exact ⟨⟨⟨by omega, h.1.1.2⟩, h.1.2⟩, h.2⟩

/-- Reading back the offset written, in a canonical list. -/
theorem cellRead_cellWrite_self {lo hi : Nat} {cs : List Cell} (h : cellsWf lo hi cs = true) (i : Nat) (v : Word) :
    cellRead (cellWrite cs i v) i = v := by
  induction cs generalizing lo with
  | nil => by_cases hv : v = 0#32 <;> simp [cellWrite, cellRead, hv]
  | cons c rest ih =>
    obtain ⟨k, u⟩ := c
    simp only [cellsWf, Bool.and_eq_true, decide_eq_true_eq] at h
    have hrest := h.2
    rcases Nat.lt_trichotomy k i with hk | hk | hk
    · have : k ≠ i := by omega
      simp [cellWrite, hk, cellRead, this, ih hrest]
    · subst hk
      by_cases hv : v = 0#32
      · simp [cellWrite, hv, cellRead_below hrest (Nat.lt_succ_self k)]
      · simp [cellWrite, hv, cellRead]
    · have h1 : ¬ k < i := by omega
      have h2 : k ≠ i := by omega
      by_cases hv : v = 0#32
      · simp [cellWrite, h1, h2, hv, cellRead, cellRead_below hrest (by omega : i < k + 1)]
      · simp [cellWrite, h1, h2, hv, cellRead]

/-- Every other offset reads as before. -/
theorem cellRead_cellWrite_of_ne (cs : List Cell) {i j : Nat} (v : Word) (h : j ≠ i) :
    cellRead (cellWrite cs i v) j = cellRead cs j := by
  have hij : i ≠ j := fun e => h e.symm
  induction cs with
  | nil => by_cases hv : v = 0#32 <;> simp [cellWrite, cellRead, hv, hij]
  | cons c rest ih =>
    obtain ⟨k, u⟩ := c
    simp only [cellWrite]
    split
    · simp [cellRead, ih]
    · split
      · rename_i hk
        subst hk
        split <;> simp [cellRead, hij]
      · split <;> simp [cellRead, hij]

/-- A write inside the bounds keeps the canonical form. -/
theorem cellWrite_wf {lo hi : Nat} {cs : List Cell} (h : cellsWf lo hi cs = true) {i : Nat} (v : Word)
    (hlo : lo ≤ i) (hhi : i < hi) : cellsWf lo hi (cellWrite cs i v) = true := by
  induction cs generalizing lo with
  | nil => by_cases hv : v = 0#32 <;> simp [cellWrite, cellsWf, hv, hlo, hhi]
  | cons c rest ih =>
    obtain ⟨k, u⟩ := c
    have hall := h
    simp only [cellsWf, Bool.and_eq_true, decide_eq_true_eq, bne_iff_ne] at h
    obtain ⟨⟨⟨hk, hkh⟩, hu⟩, hrest⟩ := h
    simp only [cellWrite]
    split
    · simp [cellsWf, hk, hkh, hu, ih hrest (by omega)]
    · split
      · rename_i hki
        subst hki
        split
        · exact cellsWf_mono hrest (by omega)
        · rename_i hv
          simp [cellsWf, hv, hlo, hhi, hrest]
      · split
        · exact hall
        · rename_i hv
          have : i + 1 ≤ k := by omega
          simp [cellsWf, hv, hlo, hhi, this, hkh, hu, hrest]

/-- The cells of a sequence of words are canonical. -/
theorem cellsOf_wf (ws : List Word) (lo : Nat) : cellsWf lo (lo + ws.length) (cellsOf lo ws) = true := by
  induction ws generalizing lo with
  | nil => rfl
  | cons w ws ih =>
    have h := ih (lo + 1)
    have e : lo + 1 + ws.length = lo + (w :: ws).length := by simp; omega
    rw [e] at h
    by_cases hw : w = 0#32
    · simpa [cellsOf, hw] using cellsWf_mono h (by omega)
    · simp only [cellsOf, hw, if_false, cellsWf, h]
      simp [hw]

/-- The cells of a sequence of words read back as the sequence. -/
theorem cellRead_cellsOf (ws : List Word) (lo k : Nat) (hk : k < ws.length) :
    cellRead (cellsOf lo ws) (lo + k) = ws[k] := by
  induction ws generalizing lo k with
  | nil => simp at hk
  | cons w ws ih =>
    cases k with
    | zero =>
      by_cases hw : w = 0#32
      · simp [cellsOf, hw, cellRead_below (cellsOf_wf ws (lo + 1)) (by omega : lo < lo + 1)]
      · simp [cellsOf, hw, cellRead]
    | succ k =>
      have hk' : k < ws.length := by simpa using hk
      have e : lo + (k + 1) = lo + 1 + k := by omega
      by_cases hw : w = 0#32
      · rw [e]; simpa [cellsOf, hw] using ih (lo + 1) k hk'
      · have hne : lo ≠ lo + 1 + k := by omega
        rw [e]; simpa [cellsOf, hw, cellRead, hne] using ih (lo + 1) k hk'

/-! ## Segments -/

@[simp] theorem Segment.setWord_len (g : Segment) (off v : Word) : (g.setWord off v).len = g.len := rfl

@[simp] theorem Segment.zeroed_len (n : Word) : (Segment.zeroed n).len = n := rfl

@[simp] theorem Segment.zeroed_word (n off : Word) : (Segment.zeroed n).word off = 0#32 := rfl

@[simp] theorem Segment.zeroed_wf (n : Word) : (Segment.zeroed n).wf = true := rfl

/-- The word written reads back. -/
theorem Segment.word_setWord_self {g : Segment} (h : g.wf = true) (off v : Word) : (g.setWord off v).word off = v :=
  cellRead_cellWrite_self h _ _

/-- Every other word of the segment reads as before. -/
theorem Segment.word_setWord_of_ne (g : Segment) {off off' : Word} (v : Word) (h : off' ≠ off) :
    (g.setWord off v).word off' = g.word off' :=
  cellRead_cellWrite_of_ne _ _ fun e => h (BitVec.eq_of_toNat_eq e)

/-- A write below the word count keeps the segment canonical. -/
theorem Segment.setWord_wf {g : Segment} (h : g.wf = true) {off : Word} (v : Word) (hoff : off.toNat < g.len.toNat) :
    (g.setWord off v).wf = true :=
  cellWrite_wf h v (Nat.zero_le _) hoff

/-- The segment of a sequence of words is canonical when the word count fits a word. -/
theorem Segment.ofWords_wf {ws : List Word} (h : ws.length < Config.maxSlots) : (Segment.ofWords ws).wf = true := by
  have := cellsOf_wf ws 0
  simpa [Segment.wf, Segment.ofWords, Nat.mod_eq_of_lt h] using this

end Sys2Proof.Machine
end

