-- ==== Sys2Proof/Laws/State.lean ====
section
/-! SUPPORT. One lemma per field per update of State, each true by rfl, so that no later proof unfolds a
record update; and what reading a register gives after each update. -/

namespace Sys2Proof.Machine.State

variable (s : State)

@[simp] theorem setReg_x (i : RegIdx) (v : Word) : (s.setReg i v).x = s.x.set i v := rfl
@[simp] theorem setReg_pc (i : RegIdx) (v : Word) : (s.setReg i v).pc = s.pc := rfl
@[simp] theorem setReg_store (i : RegIdx) (v : Word) : (s.setReg i v).store = s.store := rfl
@[simp] theorem setReg_run (i : RegIdx) (v : Word) : (s.setReg i v).run = s.run := rfl
@[simp] theorem setReg_io (i : RegIdx) (v : Word) : (s.setReg i v).io = s.io := rfl
@[simp] theorem setReg_env (i : RegIdx) (v : Word) : (s.setReg i v).env = s.env := rfl
@[simp] theorem setReg_params (i : RegIdx) (v : Word) : (s.setReg i v).params = s.params := rfl

@[simp] theorem setPc_x (t : Word) : (s.setPc t).x = s.x := rfl
@[simp] theorem setPc_pc (t : Word) : (s.setPc t).pc = t := rfl
@[simp] theorem setPc_store (t : Word) : (s.setPc t).store = s.store := rfl
@[simp] theorem setPc_run (t : Word) : (s.setPc t).run = s.run := rfl
@[simp] theorem setPc_io (t : Word) : (s.setPc t).io = s.io := rfl
@[simp] theorem setPc_env (t : Word) : (s.setPc t).env = s.env := rfl
@[simp] theorem setPc_params (t : Word) : (s.setPc t).params = s.params := rfl
@[simp] theorem reg_setPc (t : Word) (j : RegIdx) : (s.setPc t).reg j = s.reg j := rfl

@[simp] theorem setStore_x (st : Store) : (s.setStore st).x = s.x := rfl
@[simp] theorem setStore_pc (st : Store) : (s.setStore st).pc = s.pc := rfl
@[simp] theorem setStore_store (st : Store) : (s.setStore st).store = st := rfl
@[simp] theorem setStore_run (st : Store) : (s.setStore st).run = s.run := rfl
@[simp] theorem setStore_io (st : Store) : (s.setStore st).io = s.io := rfl
@[simp] theorem setStore_env (st : Store) : (s.setStore st).env = s.env := rfl
@[simp] theorem setStore_params (st : Store) : (s.setStore st).params = s.params := rfl
@[simp] theorem reg_setStore (st : Store) (j : RegIdx) : (s.setStore st).reg j = s.reg j := rfl

@[simp] theorem setRun_x (r : RunState) : (s.setRun r).x = s.x := rfl
@[simp] theorem setRun_pc (r : RunState) : (s.setRun r).pc = s.pc := rfl
@[simp] theorem setRun_store (r : RunState) : (s.setRun r).store = s.store := rfl
@[simp] theorem setRun_run (r : RunState) : (s.setRun r).run = r := rfl
@[simp] theorem setRun_io (r : RunState) : (s.setRun r).io = s.io := rfl
@[simp] theorem setRun_env (r : RunState) : (s.setRun r).env = s.env := rfl
@[simp] theorem setRun_params (r : RunState) : (s.setRun r).params = s.params := rfl
@[simp] theorem reg_setRun (r : RunState) (j : RegIdx) : (s.setRun r).reg j = s.reg j := rfl

@[simp] theorem emit_x (b : Byte) : (s.emit b).x = s.x := rfl
@[simp] theorem emit_pc (b : Byte) : (s.emit b).pc = s.pc := rfl
@[simp] theorem emit_store (b : Byte) : (s.emit b).store = s.store := rfl
@[simp] theorem emit_run (b : Byte) : (s.emit b).run = s.run := rfl
@[simp] theorem emit_io (b : Byte) : (s.emit b).io = { s.io with out := s.io.out ++ [b] } := rfl
@[simp] theorem emit_env (b : Byte) : (s.emit b).env = s.env := rfl
@[simp] theorem emit_params (b : Byte) : (s.emit b).params = s.params := rfl
@[simp] theorem reg_emit (b : Byte) (j : RegIdx) : (s.emit b).reg j = s.reg j := rfl

@[simp] theorem consume_x : (s.consume).x = s.x := rfl
@[simp] theorem consume_pc : (s.consume).pc = s.pc := rfl
@[simp] theorem consume_store : (s.consume).store = s.store := rfl
@[simp] theorem consume_run : (s.consume).run = s.run := rfl
@[simp] theorem consume_io : (s.consume).io = { s.io with inPos := s.io.inPos + 1 } := rfl
@[simp] theorem consume_env : (s.consume).env = s.env := rfl
@[simp] theorem consume_params : (s.consume).params = s.params := rfl
@[simp] theorem reg_consume (j : RegIdx) : (s.consume).reg j = s.reg j := rfl

@[simp] theorem noteEof_x : (s.noteEof).x = s.x := rfl
@[simp] theorem noteEof_pc : (s.noteEof).pc = s.pc := rfl
@[simp] theorem noteEof_store : (s.noteEof).store = s.store := rfl
@[simp] theorem noteEof_run : (s.noteEof).run = s.run := rfl
@[simp] theorem noteEof_io : (s.noteEof).io = { s.io with eofSeen := true } := rfl
@[simp] theorem noteEof_env : (s.noteEof).env = s.env := rfl
@[simp] theorem noteEof_params : (s.noteEof).params = s.params := rfl
@[simp] theorem reg_noteEof (j : RegIdx) : (s.noteEof).reg j = s.reg j := rfl

@[simp] theorem advance_x : (s.advance).x = s.x := rfl
@[simp] theorem advance_pc : (s.advance).pc = s.pc + 1#32 := rfl
@[simp] theorem advance_store : (s.advance).store = s.store := rfl
@[simp] theorem advance_run : (s.advance).run = s.run := rfl
@[simp] theorem advance_io : (s.advance).io = s.io := rfl
@[simp] theorem advance_env : (s.advance).env = s.env := rfl
@[simp] theorem advance_params : (s.advance).params = s.params := rfl
@[simp] theorem reg_advance (j : RegIdx) : (s.advance).reg j = s.reg j := rfl

/-- A register reads as the value last written to it. -/
@[simp] theorem reg_setReg_self (i : RegIdx) (v : Word) : (s.setReg i v).reg i = v := by
  simp [reg, setReg]

/-- "A `set` changes that one register and nothing else" (10_state.md R13). -/
@[simp] theorem reg_setReg_of_ne {i j : RegIdx} (v : Word) (h : j ≠ i) : (s.setReg i v).reg j = s.reg j := by
  have : i.val ≠ j.val := fun e => h (Fin.ext e.symm)
  simp [reg, setReg, this]

/-- Both cases of reading a register after a write. -/
theorem reg_setReg (i j : RegIdx) (v : Word) : (s.setReg i v).reg j = if j = i then v else s.reg j := by
  by_cases h : j = i
  · subst h; simp
  · simp [h]

/-- Two states are equal when their fields are. -/
theorem ext_fields {s t : State} (hx : s.x = t.x) (hpc : s.pc = t.pc) (hst : s.store = t.store) (hr : s.run = t.run)
    (hio : s.io = t.io) (he : s.env = t.env) (hp : s.params = t.params) : s = t := by
  cases s; cases t; simp_all

/-- Two register files are equal when all eight registers read the same. -/
theorem x_eq_of_reg {s t : State} (h : ∀ r : RegIdx, s.reg r = t.reg r) : s.x = t.x := by
  refine Vector.ext fun i hi => ?_
  simpa [reg] using h ⟨i, hi⟩

end Sys2Proof.Machine.State
end

