-- ==== Sys2Proof/Laws/Store.lean ====
section
/-! SUPPORT. The operations of the segment store: for each, once, everything it can answer; and that each
keeps memory's canonical form. -/

namespace Sys2Proof.Machine

/-! ## Slots -/

@[simp] theorem Store.setSlot_pool (st : Store) (id : Word) (o : Option Segment) : (st.setSlot id o).pool = st.pool := rfl

@[simp] theorem Store.setSlot_table (st : Store) (id : Word) (o : Option Segment) :
    (st.setSlot id o).table = st.table.set id.toNat o := rfl

/-- A live identifier's slot lies inside the table and holds its segment. -/
theorem Store.segment?_eq_some {st : Store} {id : Word} {g : Segment} :
    st.segment? id = some g ↔ st.table[id.toNat]? = some (some g) := by
  simp [Store.segment?, Option.join_eq_some_iff]

theorem Store.live_iff {st : Store} {id : Word} : st.live id = true ↔ ∃ g, st.segment? id = some g := by
  simp [Store.live, Option.isSome_iff_exists]

theorem Store.lt_of_segment? {st : Store} {id : Word} {g : Segment} (h : st.segment? id = some g) :
    id.toNat < st.table.length := by
  have := Store.segment?_eq_some.1 h
  exact (List.getElem?_eq_some_iff.1 this).1

/-- The slot replaced holds what was put there. -/
theorem Store.segment?_setSlot_self {st : Store} {id : Word} (h : id.toNat < st.table.length) (o : Option Segment) :
    (st.setSlot id o).segment? id = o := by
  cases o <;> simp [Store.segment?, Store.setSlot, h]

/-- Every other identifier names what it named before. -/
theorem Store.segment?_setSlot_of_ne (st : Store) {id id' : Word} (o : Option Segment) (h : id' ≠ id) :
    (st.setSlot id o).segment? id' = st.segment? id' := by
  have : id.toNat ≠ id'.toNat := fun e => h (BitVec.eq_of_toNat_eq e).symm
  simp [Store.segment?, Store.setSlot, List.getElem?_set_ne this]

/-- `segment?` does not look at the pool. -/
@[simp] theorem Store.segment?_mk_pool (t : List (Option Segment)) (p q : List Word) (id : Word) :
    Store.segment? { table := t, pool := p } id = Store.segment? { table := t, pool := q } id := rfl

/-! ## What each operation can answer -/

theorem memRead_eq_ok {st : Store} {id off v : Word} :
    memRead st id off = .ok v ↔ ∃ g, st.segment? id = some g ∧ off.toNat < g.len.toNat ∧ g.word off = v := by
  unfold memRead
  cases h : st.segment? id with
  | none => simp
  | some g => by_cases hlt : off.toNat < g.len.toNat <;> simp [hlt]

theorem memRead_eq_error {st : Store} {id off : Word} {c : Cause} :
    memRead st id off = .error c ↔
      (st.segment? id = none ∧ c = .invalidId id) ∨
        ∃ g, st.segment? id = some g ∧ g.len.toNat ≤ off.toNat ∧ c = .boundsOffset id off := by
  unfold memRead
  cases h : st.segment? id with
  | none => simp [eq_comm]
  | some g =>
    by_cases hlt : off.toNat < g.len.toNat
    · simp [hlt]
    · simp [hlt, Nat.le_of_not_lt hlt, eq_comm]

theorem memWrite_eq_ok {st st' : Store} {id off v : Word} :
    memWrite st id off v = .ok st' ↔
      ∃ g, st.segment? id = some g ∧ off.toNat < g.len.toNat ∧ st' = st.setSlot id (some (g.setWord off v)) := by
  unfold memWrite
  cases h : st.segment? id with
  | none => simp
  | some g => by_cases hlt : off.toNat < g.len.toNat <;> simp [hlt, eq_comm]

/-- A store fails exactly as the load of the same address does. -/
theorem memWrite_eq_error {st : Store} {id off v : Word} {c : Cause} :
    memWrite st id off v = .error c ↔ memRead st id off = .error c := by
  unfold memWrite memRead
  cases h : st.segment? id with
  | none => simp
  | some g => by_cases hlt : off.toNat < g.len.toNat <;> simp [hlt]

/-- An allocation takes the top of the pool, or grows the table by one slot. -/
theorem allocate_eq_ok {p : AllocPolicy} {st st' : Store} {n id : Word} :
    allocate p st n = .ok (id, st') ↔
      p.admits st n = true ∧
        ((∃ rest, st.pool = id :: rest ∧ st' = { st.setSlot id (some (.zeroed n)) with pool := rest }) ∨
          (st.pool = [] ∧ st.table.length < Config.maxSlots ∧ id = BitVec.ofNat 32 st.table.length ∧
            st' = { table := st.table ++ [some (.zeroed n)], pool := [] })) := by
  obtain ⟨t, q⟩ := st
  unfold allocate
  by_cases ha : p.admits ⟨t, q⟩ n = true
  · rw [if_pos ha]
    cases q with
    | nil =>
      by_cases hl : t.length < Config.maxSlots
      · simp only [if_pos hl, Except.ok.injEq, Prod.mk.injEq]
        exact ⟨fun ⟨h1, h2⟩ => ⟨ha, .inr ⟨trivial, hl, h1.symm, h2.symm⟩⟩,
          fun ⟨_, h⟩ => h.elim (fun ⟨_, h, _⟩ => nomatch h) fun ⟨_, _, h1, h2⟩ => ⟨h1.symm, h2.symm⟩⟩
      · simp only [if_neg hl]
        exact ⟨fun h => (nomatch h), fun ⟨_, h⟩ => h.elim (fun ⟨_, h, _⟩ => nomatch h) fun ⟨_, h, _⟩ => absurd h hl⟩
    | cons top rest =>
      simp only [Except.ok.injEq, Prod.mk.injEq]
      constructor
      · rintro ⟨rfl, rfl⟩; exact ⟨ha, .inl ⟨rest, rfl, rfl⟩⟩
      · rintro ⟨-, ⟨r, hr, rfl⟩ | ⟨h, -⟩⟩
        · cases hr; exact ⟨rfl, rfl⟩
        · cases h
  · rw [if_neg ha]
    exact ⟨fun h => (nomatch h), fun h => absurd h.1 ha⟩

/-- An allocation fails only with RESOURCE_EXHAUSTED. -/
theorem allocate_eq_error {p : AllocPolicy} {st : Store} {n : Word} {c : Cause} :
    allocate p st n = .error c ↔
      c = .resourceExhausted n ∧
        (p.admits st n = false ∨ (st.pool = [] ∧ Config.maxSlots ≤ st.table.length)) := by
  obtain ⟨t, q⟩ := st
  unfold allocate
  cases ha : p.admits ⟨t, q⟩ n with
  | false =>
    simp only [Bool.false_eq_true, if_false, Except.error.injEq]
    exact ⟨fun h => ⟨h.symm, .inl trivial⟩, fun h => h.1.symm⟩
  | true =>
    rw [if_pos rfl]
    cases q with
    | nil =>
      by_cases hl : t.length < Config.maxSlots
      · simp only [if_pos hl]
        exact ⟨fun h => (nomatch h), fun ⟨_, h⟩ => h.elim (fun h => nomatch h) fun ⟨_, h⟩ => absurd hl (Nat.not_lt.2 h)⟩
      · simp only [if_neg hl, Except.error.injEq]
        exact ⟨fun h => ⟨h.symm, .inr ⟨trivial, Nat.le_of_not_lt hl⟩⟩, fun h => h.1.symm⟩
    | cons top rest =>
      exact ⟨fun h => (nomatch h), fun ⟨_, h⟩ => h.elim (fun h => nomatch h) fun ⟨h, _⟩ => nomatch h⟩

theorem deallocate_eq_ok {st st' : Store} {id : Word} :
    deallocate st id = .ok st' ↔
      id ≠ 0#32 ∧ st.live id = true ∧ st' = { st.setSlot id none with pool := id :: st.pool } := by
  unfold deallocate
  by_cases h0 : id = 0#32
  · rw [if_pos h0]
    exact ⟨fun h => (nomatch h), fun h => absurd h0 h.1⟩
  · rw [if_neg h0]
    by_cases hl : st.live id = true
    · rw [if_pos hl, Except.ok.injEq]
      exact ⟨fun h => ⟨h0, hl, h.symm⟩, fun h => h.2.2.symm⟩
    · rw [if_neg hl]
      exact ⟨fun h => (nomatch h), fun h => absurd h.2.1 hl⟩

theorem deallocate_eq_error {st : Store} {id : Word} {c : Cause} :
    deallocate st id = .error c ↔ c = .invalidId id ∧ (id = 0#32 ∨ st.live id = false) := by
  unfold deallocate
  by_cases h0 : id = 0#32
  · subst h0
    rw [if_pos rfl, Except.error.injEq]
    exact ⟨fun h => ⟨h.symm, .inl rfl⟩, fun h => h.1.symm⟩
  · rw [if_neg h0]
    by_cases hl : st.live id = true
    · rw [if_pos hl]
      exact ⟨fun h => (nomatch h), fun h => h.2.elim (absurd · h0) fun h => by simp [hl] at h⟩
    · rw [if_neg hl, Except.error.injEq]
      exact ⟨fun h => ⟨h.symm, .inr (by simpa using hl)⟩, fun h => h.1.symm⟩

theorem replaceProgram_eq_ok {p : AllocPolicy} {st st' : Store} {id : Word} (h0 : id ≠ 0#32) :
    replaceProgram p st id = .ok st' ↔
      ∃ g, st.segment? id = some g ∧ p.admits st g.len = true ∧ st' = st.setSlot 0#32 (some g) := by
  unfold replaceProgram
  rw [if_neg h0]
  cases h : st.segment? id with
  | none => simp
  | some g =>
    by_cases ha : p.admits st g.len = true
    · simp only [if_pos ha, Except.ok.injEq, Option.some.injEq]
      exact ⟨fun h => ⟨g, rfl, ha, h.symm⟩, fun ⟨_, e, _, h⟩ => by rw [h, e]⟩
    · simp only [if_neg ha, Option.some.injEq]
      exact ⟨fun h => (nomatch h), fun ⟨_, e, h, _⟩ => absurd (e ▸ h) ha⟩

theorem replaceProgram_eq_error {p : AllocPolicy} {st : Store} {id : Word} {c : Cause} (h0 : id ≠ 0#32) :
    replaceProgram p st id = .error c ↔
      (st.segment? id = none ∧ c = .invalidId id) ∨
        ∃ g, st.segment? id = some g ∧ p.admits st g.len = false ∧ c = .resourceExhausted g.len := by
  unfold replaceProgram
  rw [if_neg h0]
  cases h : st.segment? id with
  | none =>
    simp only [Except.error.injEq, true_and]
    exact ⟨fun h => .inl h.symm, fun h => h.elim Eq.symm fun ⟨_, e, _⟩ => nomatch e⟩
  | some g =>
    by_cases ha : p.admits st g.len = true
    · simp only [if_pos ha, Option.some.injEq]
      exact ⟨fun h => (nomatch h), fun h => h.elim (fun h => nomatch h.1) fun ⟨_, e, h, _⟩ => by
        rw [← e, ha] at h; cases h⟩
    · simp only [if_neg ha, Except.error.injEq, Option.some.injEq]
      exact ⟨fun h => .inr ⟨g, rfl, by simpa using ha, h.symm⟩, fun h => h.elim (fun h => nomatch h.1)
        fun ⟨_, e, _, h⟩ => by rw [h, e]⟩

/-! ## Every operation keeps memory's canonical form -/

theorem Memory.wf_iff {st : Store} : Memory.wf st = true ↔ ∀ g, some g ∈ st.table → g.wf = true := by
  simp only [Memory.wf, List.all_eq_true]
  constructor
  · intro h g hg; simpa using h _ hg
  · intro h slot hs
    cases slot with
    | none => rfl
    | some g => simpa using h g hs

/-- Memory's form does not depend on the pool. -/
@[simp] theorem Memory.wf_pool (t : List (Option Segment)) (p q : List Word) :
    Memory.wf { table := t, pool := p } = Memory.wf { table := t, pool := q } := rfl

/-- Every live segment of a canonical memory is canonical. -/
theorem Memory.wf_segment {st : Store} (h : Memory.wf st = true) {id : Word} {g : Segment}
    (hg : st.segment? id = some g) : g.wf = true :=
  Memory.wf_iff.1 h g (List.mem_of_getElem? (Store.segment?_eq_some.1 hg))

/-- A slot replaced by the tombstone or by a canonical segment keeps the form. -/
theorem Memory.wf_setSlot {st : Store} (h : Memory.wf st = true) (id : Word) {o : Option Segment}
    (ho : ∀ g, o = some g → g.wf = true) : Memory.wf (st.setSlot id o) = true := by
  refine Memory.wf_iff.2 fun g hg => ?_
  rcases List.mem_or_eq_of_mem_set hg with hm | he
  · exact Memory.wf_iff.1 h g hm
  · exact ho g he.symm

theorem memWrite_wf {st st' : Store} {id off v : Word} (h : Memory.wf st = true)
    (hw : memWrite st id off v = .ok st') : Memory.wf st' = true := by
  obtain ⟨g, hg, hlt, rfl⟩ := memWrite_eq_ok.1 hw
  refine Memory.wf_setSlot h id fun g' e => ?_
  cases e
  exact Segment.setWord_wf (Memory.wf_segment h hg) v hlt

theorem allocate_wf {p : AllocPolicy} {st st' : Store} {n id : Word} (h : Memory.wf st = true)
    (ha : allocate p st n = .ok (id, st')) : Memory.wf st' = true := by
  rcases (allocate_eq_ok.1 ha).2 with ⟨rest, -, rfl⟩ | ⟨-, -, -, rfl⟩
  · exact Memory.wf_setSlot h id fun g e => by cases e; rfl
  · refine Memory.wf_iff.2 fun g hg => ?_
    rcases List.mem_append.1 hg with hm | hm
    · exact Memory.wf_iff.1 h g hm
    · simp only [List.mem_singleton, Option.some.injEq] at hm
      subst hm; rfl

theorem deallocate_wf {st st' : Store} {id : Word} (h : Memory.wf st = true)
    (hd : deallocate st id = .ok st') : Memory.wf st' = true := by
  obtain ⟨-, -, rfl⟩ := deallocate_eq_ok.1 hd
  exact Memory.wf_setSlot h id fun g e => by cases e

theorem replaceProgram_wf {p : AllocPolicy} {st st' : Store} {id : Word} (h : Memory.wf st = true)
    (hr : replaceProgram p st id = .ok st') : Memory.wf st' = true := by
  by_cases h0 : id = 0#32
  · simp only [replaceProgram, h0, if_true, Except.ok.injEq] at hr
    exact hr ▸ h
  · obtain ⟨g, hg, -, rfl⟩ := (replaceProgram_eq_ok h0).1 hr
    refine Memory.wf_setSlot h _ fun g' e => ?_
    cases e
    exact Memory.wf_segment h hg

/-- Memory right after reset is canonical. -/
theorem reset_memory_wf : Memory.wf State.reset.store = true := by decide

end Sys2Proof.Machine
end

