-- ==== Sys2Proof/Laws/Exec.lean ====
section
/-! SUPPORT. How an instruction ends: the shapes every meaning is made of, each with what it can answer. -/

namespace Sys2Proof.Machine

theorem raise_eq_next {c : Cause} {s t : State} :
    raise c s = .next t ↔ t = s.setRun (.faulted { cause := c, pc := s.pc }) := by
  simp [raise, eq_comm]

theorem completed_eq_next {s t : State} : completed s = .next t ↔ t = s.advance := by
  simp [completed, eq_comm]

@[simp] theorem orRaise_ok {α : Type} (s : State) (a : α) (k : α → Result) : orRaise s (.ok a) k = k a := rfl

@[simp] theorem orRaise_error {α : Type} (s : State) (c : Cause) (k : α → Result) :
    orRaise s (.error c) k = raise c s := rfl

/-- A next state comes from the error's entry or from the operation's answer. -/
theorem orRaise_eq_next {α : Type} {s t : State} {r : Except Cause α} {k : α → Result} (h : orRaise s r k = .next t) :
    (∃ c, r = .error c ∧ t = s.setRun (.faulted { cause := c, pc := s.pc })) ∨ ∃ a, r = .ok a ∧ k a = .next t := by
  cases r with
  | error c => exact .inl ⟨c, rfl, raise_eq_next.1 h⟩
  | ok a => exact .inr ⟨a, rfl, h⟩

theorem binary_eq_next {f : Word → Word → Word} {a b c : RegIdx} {s t : State} :
    binary f a b c s = .next t ↔ t = (s.setReg a (f (s.reg b) (s.reg c))).advance :=
  completed_eq_next

theorem sendByte_eq_next {b : Byte} {s t : State} :
    sendByte b s = .next t ↔ s.env.outputReady = true ∧ t = (s.emit b).advance := by
  unfold sendByte
  by_cases h : s.env.outputReady <;> simp [h, completed_eq_next]

/-- What fetch answers: the word at the pc of segment 0. -/
theorem fetch_eq_ok {s : State} {w : Word} :
    fetch s = .ok w ↔ ∃ g, s.store.segment? 0#32 = some g ∧ s.pc.toNat < g.len.toNat ∧ g.word s.pc = w := by
  unfold fetch
  cases h : s.store.segment? 0#32 with
  | none => simp
  | some g => by_cases hlt : s.pc.toNat < g.len.toNat <;> simp [hlt]

/-- What fetch refuses. -/
theorem fetch_eq_error {s : State} {c : Cause} :
    fetch s = .error c ↔
      (s.store.segment? 0#32 = none ∧ c = .invalidId 0#32) ∨
        ∃ g, s.store.segment? 0#32 = some g ∧ g.len.toNat ≤ s.pc.toNat ∧ c = .boundsPc s.pc g.len := by
  unfold fetch
  cases h : s.store.segment? 0#32 with
  | none => simp [eq_comm]
  | some g =>
    by_cases hlt : s.pc.toNat < g.len.toNat
    · simp [hlt]
    · simp [hlt, Nat.le_of_not_lt hlt, eq_comm]

/-- The four ways a step of a running machine can go. -/
theorem step_running_cases {s : State} (h : s.run = .running) :
    (∃ c, fetch s = .error c ∧ step s = raise c s) ∨
      (∃ w, fetch s = .ok w ∧ decode w = none ∧ step s = raise (.decode w) s) ∨
        ∃ w i, fetch s = .ok w ∧ decode w = some i ∧ step s = exec i s := by
  unfold step
  rw [h]
  cases hf : fetch s with
  | error c => exact .inl ⟨c, rfl, rfl⟩
  | ok w =>
    cases hd : decode w with
    | none => exact .inr (.inl ⟨w, rfl, hd, by simp [hd]⟩)
    | some i => exact .inr (.inr ⟨w, i, rfl, hd, by simp [hd]⟩)

end Sys2Proof.Machine
end

