-- ==== Sys2Proof/Laws/PerInstr.lean ====
section
/-! SUPPORT. Statements about every instruction as syntax, one lemma per constructor: `WfSyntax`, every
instruction is one an assembler accepts; `OpcodeField`, the canonical word carries the row's opcode in bits
31 to 28 (30_encoding.md R61, R65). -/

namespace Sys2Proof.Laws.WfSyntax

/-- The instruction passes the assembler's checks (30_encoding.md R71). -/
def Statement (i : Instr) : Prop := i.wf = true

/-- Every register index is a legal register number. -/
theorem regOk_val (r : RegIdx) : regOk r.val = true := by
  simp [regOk, r.isLt]

theorem cmov (a b c : RegIdx) : Statement (.cmov a b c) := by
  simp [Statement, Instr.wf, Instr.toAsm, AsmLine.wf, regOk_val]

theorem sload (a b c : RegIdx) : Statement (.sload a b c) := by
  simp [Statement, Instr.wf, Instr.toAsm, AsmLine.wf, regOk_val]

theorem sstore (a b c : RegIdx) : Statement (.sstore a b c) := by
  simp [Statement, Instr.wf, Instr.toAsm, AsmLine.wf, regOk_val]

theorem add (a b c : RegIdx) : Statement (.add a b c) := by
  simp [Statement, Instr.wf, Instr.toAsm, AsmLine.wf, regOk_val]

theorem mul (a b c : RegIdx) : Statement (.mul a b c) := by
  simp [Statement, Instr.wf, Instr.toAsm, AsmLine.wf, regOk_val]

theorem div (a b c : RegIdx) : Statement (.div a b c) := by
  simp [Statement, Instr.wf, Instr.toAsm, AsmLine.wf, regOk_val]

theorem nand (a b c : RegIdx) : Statement (.nand a b c) := by
  simp [Statement, Instr.wf, Instr.toAsm, AsmLine.wf, regOk_val]

theorem halt : Statement .halt := rfl

theorem map (b c : RegIdx) : Statement (.map b c) := by
  simp [Statement, Instr.wf, Instr.toAsm, AsmLine.wf, regOk_val]

theorem unmap (c : RegIdx) : Statement (.unmap c) := by
  simp [Statement, Instr.wf, Instr.toAsm, AsmLine.wf, regOk_val]

theorem out (c : RegIdx) : Statement (.out c) := by
  simp [Statement, Instr.wf, Instr.toAsm, AsmLine.wf, regOk_val]

theorem inp (c : RegIdx) : Statement (.inp c) := by
  simp [Statement, Instr.wf, Instr.toAsm, AsmLine.wf, regOk_val]

theorem loadp (b c : RegIdx) : Statement (.loadp b c) := by
  simp [Statement, Instr.wf, Instr.toAsm, AsmLine.wf, regOk_val]

theorem loadi (a : RegIdx) (imm : Imm) : Statement (.loadi a imm) := by
  have := imm.isLt
  simp only [Statement, Instr.wf, Instr.toAsm, AsmLine.wf, regOk_val, immOk, Bool.true_and, decide_eq_true_eq]
  omega

end Sys2Proof.Laws.WfSyntax

namespace Sys2Proof.Laws.OpcodeField

/-- Bits 31 to 28 of the canonical word are the opcode (30_encoding.md R61). -/
def Statement (i : Instr) : Prop := bits (encode i) 31 28 = i.opcode

/-- The opcode field of a three-register word. -/
theorem three : ∀ (op : Fin 13) (a b c : RegIdx), bits (encodeThree op.val a b c) 31 28 = op.val := by decide +kernel

theorem cmov (a b c : RegIdx) : Statement (.cmov a b c) := three 0 a b c
theorem sload (a b c : RegIdx) : Statement (.sload a b c) := three 1 a b c
theorem sstore (a b c : RegIdx) : Statement (.sstore a b c) := three 2 a b c
theorem add (a b c : RegIdx) : Statement (.add a b c) := three 3 a b c
theorem mul (a b c : RegIdx) : Statement (.mul a b c) := three 4 a b c
theorem div (a b c : RegIdx) : Statement (.div a b c) := three 5 a b c
theorem nand (a b c : RegIdx) : Statement (.nand a b c) := three 6 a b c
theorem halt : Statement .halt := three 7 0 0 0
theorem map (b c : RegIdx) : Statement (.map b c) := three 8 0 b c
theorem unmap (c : RegIdx) : Statement (.unmap c) := three 9 0 0 c
theorem out (c : RegIdx) : Statement (.out c) := three 10 0 0 c
theorem inp (c : RegIdx) : Statement (.inp c) := three 11 0 0 c
theorem loadp (b c : RegIdx) : Statement (.loadp b c) := three 12 0 b c

theorem loadi (a : RegIdx) (imm : Imm) : Statement (.loadi a imm) := by
  have ha : (BitVec.ofNat 32 a <<< 25 : Word).toNat < 2 ^ 28 := by revert a; decide
  have hi : (imm.setWidth 32).toNat < 2 ^ 28 := by
    have := imm.isLt
    rw [BitVec.toNat_setWidth, Nat.mod_eq_of_lt (by omega)]; omega
  have ha' : (BitVec.ofNat 32 a <<< 25 : Word).toNat >>> 28 = 0 := by
    rw [Nat.shiftRight_eq_div_pow]; exact Nat.div_eq_of_lt ha
  have hi' : (imm.setWidth 32).toNat >>> 28 = 0 := by
    rw [Nat.shiftRight_eq_div_pow]; exact Nat.div_eq_of_lt hi
  simp only [Statement, bits, encode, encodeImm, Instr.opcode, BitVec.toNat_or, Nat.shiftRight_or_distrib, ha', hi']
  decide

end Sys2Proof.Laws.OpcodeField
end

