-- ==== Sys2Proof/Tests/Slice0.lean ====
section
/-! SUPPORT. The writer's own tests. Expected results are the spec's own: words written out from its
encodings (30_encoding.md), and the vectors of 95_test_vectors.md under their names there. Then, for every
statement with hypotheses, a concrete state and operands that meet them. -/

namespace Sys2Proof.Tests

open Sys2Proof.Machine Sys2Proof.Claims

/-! ## Helpers -/

/-- The next state, if there is one. -/
def after (o : Result) : Option State :=
  match o with
  | .next s => some s
  | .fault _ | .refused _ => none

/-- The reset state with a program in segment 0. -/
def prog (ws : List Word) : State := { State.reset with store := { table := [some (.ofWords ws)], pool := [] } }

/-- The start of the vectors LS1 to LS12: segment 1 = [0x11, 0x22, 0x33], slot 2 a tombstone, pool = [2]. -/
def ls (ws : List Word) : State :=
  { State.reset with
    store := { table := [some (.ofWords ws), some (.ofWords [0x11#32, 0x22#32, 0x33#32]), none], pool := [2#32] } }

/-- A state with an input stream. -/
def withInput (bs : List Byte) (ended : Bool) (s : State) : State :=
  { s with env := { s.env with input := bs, inputEnded := ended } }

/-- A state with other parameters. -/
def withParams (p : Params) (s : State) : State := { s with params := p }

/-- A state whose environment does not accept output. -/
def outputHeld (s : State) : State := { s with env := { s.env with outputReady := false } }

/-- The store's invariant as a test that evaluates: the pool is a list, so its clause is run over it. -/
def storeOk (st : Store) : Bool :=
  decide st.ZeroLive && st.pool.all (fun id => decide (st.table[id.toNat]? = some none)) &&
    decide st.TombstonesInPool && decide st.pool.Nodup && decide (st.table.length ≤ Config.maxSlots) && Memory.wf st

theorem storeInv_of_storeOk (st : Store) (h : storeOk st = true) : st.Inv := by
  simp only [storeOk, Bool.and_eq_true, decide_eq_true_eq, List.all_eq_true] at h
  exact ⟨h.1.1.1.1.1, h.1.1.1.1.2, h.1.1.1.2, h.1.1.2, h.1.2, h.2⟩

/-- The storage holds nothing more. -/
def full : Params := { outGt255 := .fault, allocOk := .finite false [] }

/-- OUT above 255 is masked. -/
def masked : Params := { outGt255 := .mask, allocOk := .finite true [] }

/-! ## Well-formedness: each check refuses an ill-formed line (30_encoding.md R71) -/

theorem test_wf_refuses_register_8 : (AsmLine.add 1 8 2).wf = false := by decide
theorem test_wf_refuses_immediate_too_large : (AsmLine.loadi 0 33554432).wf = false := by decide
theorem test_wf_refuses_data_word_too_large : (AsmLine.word 0x100000000).wf = false := by decide
theorem test_assembler_refuses_without_truncating : assemble (.loadi 0 33554432) = none := by decide
theorem test_assembler_canonical_word : assemble (.loadp 6 5) = some 0xC0000035#32 := by decide

theorem test_label_is_the_index_of_the_next_word :
    assembleText [.loadiLabel 1 "end", .line (.loadp 0 1), .label "end", .line .halt, .wordLabel "end"]
      = some [0xD2000002#32, 0xC0000001#32, 0x70000000#32, 2#32] := by decide
theorem test_unknown_label_is_refused : assembleText [.loadiLabel 1 "end"] = none := by decide
theorem test_disassembler_shows_ignored_bits :
    disassemble 0x3ABCDE53#32 = .add 1 2 3 ∧ ignoredBits 0x3ABCDE53#32 = 0x0ABCDE00#32 ∧
    disassemble 0xE0000053#32 = .word 0xE0000053 := by decide

/-! ## Decoding: every constructor from a word written out field by field (30_encoding.md R62, R63, R65) -/

theorem test_decode_cmov : decode (0b0000#4 ++ 0#19 ++ 0b001#3 ++ 0b010#3 ++ 0b011#3) = some (.cmov 1 2 3) := by decide
theorem test_decode_sload : decode (0b0001#4 ++ 0#19 ++ 0b010#3 ++ 0b001#3 ++ 0b011#3) = some (.sload 2 1 3) := by decide
theorem test_decode_sstore : decode (0b0010#4 ++ 0#19 ++ 0b010#3 ++ 0b011#3 ++ 0b100#3) = some (.sstore 2 3 4) := by decide
theorem test_decode_add_ignored_bits :
    decode (0b0011#4 ++ 0b1111111111111111111#19 ++ 0b111#3 ++ 0b110#3 ++ 0b101#3) = some (.add 7 6 5) := by decide
theorem test_decode_mul : decode (0b0100#4 ++ 0#19 ++ 0b000#3 ++ 0b011#3 ++ 0b001#3) = some (.mul 0 3 1) := by decide
theorem test_decode_div : decode (0b0101#4 ++ 0#19 ++ 0b010#3 ++ 0b001#3 ++ 0b000#3) = some (.div 2 1 0) := by decide
theorem test_decode_nand : decode (0b0110#4 ++ 0#19 ++ 0b111#3 ++ 0b110#3 ++ 0b100#3) = some (.nand 7 6 4) := by decide
theorem test_decode_halt_ignores_operands :
    decode (0b0111#4 ++ 0b1111111111111111111#19 ++ 0b111#3 ++ 0b111#3 ++ 0b111#3) = some .halt := by decide
theorem test_decode_map : decode (0b1000#4 ++ 0#19 ++ 0b101#3 ++ 0b010#3 ++ 0b011#3) = some (.map 2 3) := by decide
theorem test_decode_unmap : decode (0b1001#4 ++ 0#19 ++ 0b000#3 ++ 0b111#3 ++ 0b110#3) = some (.unmap 6) := by decide
theorem test_decode_out : decode (0b1010#4 ++ 0#19 ++ 0b001#3 ++ 0b010#3 ++ 0b101#3) = some (.out 5) := by decide
theorem test_decode_in : decode (0b1011#4 ++ 0#19 ++ 0b001#3 ++ 0b010#3 ++ 0b111#3) = some (.inp 7) := by decide
theorem test_decode_loadp : decode (0b1100#4 ++ 0#19 ++ 0b111#3 ++ 0b110#3 ++ 0b101#3) = some (.loadp 6 5) := by decide
theorem test_decode_loadi :
    decode (0b1101#4 ++ 0b110#3 ++ 0b1000000000000000011111111#25) = some (.loadi 6 0x10000FF#25) := by decide
theorem test_decode_invalid_by_name : decodeWord 0xE0000053#32 = .invalid 0xE0000053#32 := by decide
theorem test_decode_extracts_fields_of_halt : decodeWord 0x7FFFFFFF#32 = .three 7 7 7 7 := by decide

/-! ## One step of each instruction (95_test_vectors.md) -/

theorem test_MV3_any_nonzero_moves :
    (after (step ((((prog [0x00000053#32]).setReg 1 7#32).setReg 2 0x2A#32).setReg 3 0x80000000#32))).map (·.reg 1)
      = some 0x2A#32 := by decide
theorem test_MV4_condition_read_before_write :
    (after (step (((prog [0x00000051#32]).setReg 1 5#32).setReg 2 9#32))).map (·.reg 1) = some 9#32 := by decide
theorem test_MV10_no_sign_extension :
    (after (step (prog [0xD3000000#32]))).map (·.reg 1) = some 0x01000000#32 := by decide
theorem test_LS1_sload :
    (after (step (((ls [0x1000008B#32]).setReg 1 1#32).setReg 3 2#32))).map (·.reg 2) = some 0x33#32 := by decide
theorem test_LS5_identifier_checked_before_offset :
    (after (step (((ls [0x1000008B#32]).setReg 1 2#32).setReg 3 99#32))).map (·.run)
      = some (.faulted { cause := .invalidId 2#32, pc := 0#32 }) := by decide
theorem test_LS8_sstore :
    (after (step ((((ls [0x2000009C#32]).setReg 2 1#32).setReg 3 1#32).setReg 4 0xDEADBEEF#32))).map
      (·.store.segment? 1#32) = some (some (.ofWords [0x11#32, 0xDEADBEEF#32, 0x33#32])) := by decide
theorem test_LS9_sstore_out_of_bounds :
    (after (step ((((ls [0x2000009C#32]).setReg 2 1#32).setReg 3 3#32).setReg 4 5#32))).map
      (fun t => (t.run, t.store.segment? 1#32))
      = some (.faulted { cause := .boundsOffset 1#32 3#32, pc := 0#32 },
          some (.ofWords [0x11#32, 0x22#32, 0x33#32])) := by decide
theorem test_AR15_add :
    (after (exec (.add 1 2 3) (((prog []).setReg 2 0xDEADBEEF#32).setReg 3 0xFFFF#32))).map (·.reg 1)
      = some 0xDEAEBEEE#32 := by decide
theorem test_AR3_add_wraps :
    (after (exec (.add 1 2 3) (((prog []).setReg 2 0xFFFFFFFF#32).setReg 3 1#32))).map (·.reg 1) = some 0#32 := by decide
theorem test_AR8_mul :
    (after (exec (.mul 1 2 3) (((prog []).setReg 2 0x01FFFFFF#32).setReg 3 0x01FFFFFF#32))).map (·.reg 1)
      = some 0xFC000001#32 := by decide
theorem test_AR18_mul :
    (after (exec (.mul 1 2 3) (((prog []).setReg 2 0xAAAAAAAA#32).setReg 3 0x55555555#32))).map (·.reg 1)
      = some 0x71C71C72#32 := by decide
theorem test_AR14_div_is_unsigned :
    (after (exec (.div 1 2 3) (((prog []).setReg 2 0x80000000#32).setReg 3 0xFFFFFFFF#32))).map (·.reg 1)
      = some 0#32 := by decide
theorem test_AR12_div :
    (after (exec (.div 1 2 3) (((prog []).setReg 2 131#32).setReg 3 2#32))).map (·.reg 1) = some 65#32 := by decide
theorem test_AR7_nand :
    (after (exec (.nand 1 2 3) (((prog []).setReg 2 0x12345678#32).setReg 3 0x9ABCDEF0#32))).map (·.reg 1)
      = some 0xEDCBA98F#32 := by decide
theorem test_CT2_halt_keeps_pc :
    (after (step ((prog [0#32, 0#32, 0x7ABCDEF1#32]).setPc 2#32))).map (fun t => (t.run, t.pc))
      = some (.halted, 2#32) := by decide
theorem test_CT3_loadp_jumps :
    (after (step (((prog [0xC0000013#32]).setReg 3 5#32)))).map (fun t => (t.pc, t.store))
      = some (5#32, (prog [0xC0000013#32]).store) := by decide
theorem test_CT7_loadp_loads :
    (after (step (((ls [0xC0000013#32]).setReg 2 1#32).setReg 3 7#32))).map
      (fun t => (t.pc, t.store.segment? 0#32, t.store.segment? 1#32))
      = some (7#32, some (.ofWords [0x11#32, 0x22#32, 0x33#32]), some (.ofWords [0x11#32, 0x22#32, 0x33#32])) := by decide
theorem test_SA1_first_map_returns_1 :
    (after (step ((prog [0x80000013#32]).setReg 3 2#32))).map
      (fun t => (t.reg 2, t.store.table.length, t.store.segment? 1#32, t.store.pool))
      = some (1#32, 2, some (.ofWords [0#32, 0#32]), []) := by decide
theorem test_SA7_map_reuses :
    (after (exec (.map 2 4) ((ls []).setReg 4 5#32))).map
      (fun t => (t.reg 2, t.store.table.length, t.store.segment? 2#32, t.store.pool))
      = some (2#32, 3, some (.ofWords [0#32, 0#32, 0#32, 0#32, 0#32]), []) := by decide
theorem test_SA3_unmap :
    (after (exec (.unmap 3) ((ls []).setReg 3 1#32))).map (fun t => (t.store.table[1]?, t.store.table.length, t.store.pool))
      = some (some none, 3, [1#32, 2#32]) := by decide
theorem test_SA5_segment_0_cannot_be_unmapped :
    (after (exec (.unmap 3) (ls []))).map (·.run) = some (.faulted { cause := .invalidId 0#32, pc := 0#32 }) := by decide
theorem test_IO3_out_255 :
    (after (exec (.out 0) ((prog []).setReg 0 255#32))).map (·.io.out) = some [0xFF#8] := by decide
theorem test_IO4n_out_masked :
    (after (exec (.out 0) (withParams masked ((prog []).setReg 0 0x161#32)))).map (·.io.out) = some [0x61#8] := by decide
theorem test_IO7_in_byte_ff :
    (after (exec (.inp 5) { withInput [0x41#8, 0xFF#8] true (prog []) with io := { out := [], inPos := 1, eofSeen := false } })).map
      (fun t => (t.reg 5, t.io.inPos)) = some (0xFF#32, 2) := by decide
theorem test_IO5_in_end :
    (after (exec (.inp 5) ((prog []).setReg 5 7#32))).map (fun t => (t.reg 5, t.io)) =
      some (0xFFFFFFFF#32, { out := [], inPos := 0, eofSeen := true }) := by decide

/-! ## Boot, fetch and status (95_test_vectors.md section 2.8) -/

theorem test_BT1_image :
    wordsOfImage [0xD0#8, 0#8, 0#8, 0x61#8, 0xA0#8, 0#8, 0#8, 0#8] = some [0xD0000061#32, 0xA0000000#32] := by decide
theorem test_BT3_empty_image : (after (step State.reset)).map (fun t => (t.status, t.faultInfo))
    = some (0b0000001010#32, (0#32, 0#32)) := by decide
theorem test_empty_image_is_accepted_whatever_the_storage : (State.boot full .quiet []).run = .running := by decide
theorem test_BT4_refused : (State.boot .standard .quiet [1#8, 2#8, 3#8, 4#8, 5#8]).faultInfo = (1#32, 0#32) := by decide
theorem test_BT6_illegal_word :
    (after (step ((prog [0xD2000007#32, 0xE0000000#32, 0x70000000#32]).setPc 1#32))).map (·.run)
      = some (.faulted { cause := .decode 0xE0000000#32, pc := 1#32 }) := by decide
theorem test_FAULT_PC_is_the_pc_of_the_faulting_word :
    (after (step ((prog [0x70000000#32, 0xE0000000#32]).setPc 1#32))).map (·.faultPc) = some 1#32 := by decide
theorem test_env_reset_starts_anew :
    (envMove (.reset [] .quiet) ((ls []).setReg 3 1#32)).reg 3 = 0#32 := by decide
theorem test_env_deliver_answers :
    (envMove (.deliver 0x41#8) (withInput [] false (prog []))).inputAnswer = some (.byte 0x41#8) := by decide

/-! ## Witnesses: for every statement with hypotheses, a state and operands that meet them -/

theorem witness_EncodeOfDecodeClearsIgnoredBits : decode 0x3ABCDE53#32 = some (.add 1 2 3) := by decide

theorem witness_DecoderReadsTheFieldsBitForBit :
    (0xDFFFFFFF#32 : Word).extractLsb' 28 4 = 13#4 ∧ (0#32 : Word).extractLsb' 28 4 = BitVec.ofNat 4 (0 : Fin 13).val ∧
    (0xCFFFFFFF#32 : Word).extractLsb' 28 4 = BitVec.ofNat 4 (12 : Fin 13).val ∧
    (0xE0000000#32 : Word).extractLsb' 28 4 = 14#4 ∧ (0xFFFFFFFF#32 : Word).extractLsb' 28 4 = 15#4 := by decide

theorem witness_IgnoredBitsChangeNothing :
    (0xCFFFFFF5#32 : Word).toNat < 0xD0000000 ∧ (prog [0xCFFFFFF5#32]).run = .running ∧
    memRead (prog [0xCFFFFFF5#32]).store 0#32 (prog [0xCFFFFFF5#32]).pc = .ok 0xCFFFFFF5#32 := by decide

theorem witness_UnusedFieldsChangeNothing :
    decode 0x9000003F#32 = some (.unmap 7) ∧
    0x90000007#32 &&& (Instr.unmap 7).usedMask = 0x9000003F#32 &&& (Instr.unmap 7).usedMask := by decide

theorem witness_ImageIsBigEndianWords :
    [0x12#8, 0x34#8, 0x56#8, 0x78#8].length = 4 * 1 ∧ ([] : List Byte).length = 4 * 0 ∧
    loadImage Params.standard.allocOk [0x12#8, 0x34#8, 0x56#8, 0x78#8] = .ok [0x12345678#32] ∧
    loadImage Params.standard.allocOk [] = .ok [] := by decide

theorem witness_ResetEstablishesTheResetState :
    loadImage Params.standard.allocOk [0x70#8, 0#8, 0#8, 0#8] = .ok [0x70000000#32] := by decide

theorem witness_IllFormedImagesAreRefused :
    [1#8].length % 4 ≠ 0 ∧ [1#8, 2#8, 3#8, 4#8].length = 4 * 1 ∧
    full.allocOk.admits { table := [], pool := [] } (BitVec.ofNat 32 1) = false ∧
    Params.standard.allocOk.admits { table := [], pool := [] } (BitVec.ofNat 32 1) = true ∧
    ([] : List Byte).length = 4 * 0 := by decide

/-- The clause about 2^32 words and more. -/
theorem witness_IllFormedImagesAreRefused_too_many_words :
    (List.replicate (4 * 4294967296) 0#8).length = 4 * 4294967296 := List.length_replicate

theorem witness_StepRunsTheDecodedInstruction :
    (prog [0xD0000061#32]).run = .running ∧
    memRead (prog [0xD0000061#32]).store 0#32 (prog [0xD0000061#32]).pc = .ok 0xD0000061#32 ∧
    decode 0xD0000061#32 = some (.loadi 0 97#25) := by decide

theorem witness_FetchOutsideSegmentZeroFaults :
    ((prog [0#32]).setPc 1#32).run = .running ∧ (prog [0#32]).store.segment? 0#32 = some (.ofWords [0#32]) ∧
    (Segment.ofWords [0#32]).len.toNat ≤ ((prog [0#32]).setPc 1#32).pc.toNat := by decide

theorem witness_IllegalWordsFault :
    (prog [0xE0000000#32]).run = .running ∧ memRead (prog [0xE0000000#32]).store 0#32 0#32 = .ok 0xE0000000#32 ∧
    0xE0000000 ≤ (0xE0000000#32 : Word).toNat := by decide

theorem witness_TerminalStatesStay :
    (State.reset.setRun .halted).run ≠ .running ∧
    (State.reset.setRun (.faulted { cause := .divZero 0#32, pc := 0#32 })).run ≠ .running := by decide

theorem witness_PlacedWordIsRun :
    Memory.wf State.reset.store = true ∧ decodeTableWord 32 0xD0000061 = some (.loadi 0 97#25) := by decide

/-- The clause `IsRow` of every three-register instruction: a word with the row's match, its ignored bits ones. -/
theorem witness_IsRow :
    ∀ op : Fin 13, ((BitVec.ofNat 32 op.val <<< 28) ||| 0x0FFFFE53#32) &&& 0xF0000000#32 = BitVec.ofNat 32 op.val <<< 28 := by
  decide

theorem witness_StepStopsOnlyToWait :
    step (withInput [] false (prog [0xB0000007#32])) = .fault .awaitingInput ∧
    step (outputHeld (prog [0xA0000000#32])) = .fault .awaitingOutput := ⟨rfl, rfl⟩

theorem witness_IsRow_and_CmovMovesWhenNotZero :
    (0x0FFFFE53#32 : Word) &&& 0xF0000000#32 = 0x00000000#32 ∧ ((prog []).setReg 3 1#32).x[(3 : RegIdx)] ≠ 0#32 ∧
    (prog []).x[(3 : RegIdx)] = 0#32 := by decide

theorem witness_LoadiWritesTheImmediate : (0xDFFFFFFF#32 : Word) &&& 0xF0000000#32 = 0xD0000000#32 := by decide

theorem witness_DivFloorsOrFaults :
    ((prog []).setReg 3 1#32).x[(3 : RegIdx)] ≠ 0#32 ∧ (prog []).x[(3 : RegIdx)] = 0#32 := by decide

theorem witness_SloadReadsOneWord_and_SstoreWritesOneWord :
    (((ls []).setReg 1 1#32).setReg 3 2#32).store.segment? 1#32 = some (.ofWords [0x11#32, 0x22#32, 0x33#32]) ∧
    (2#32 : Word).toNat < (Segment.ofWords [0x11#32, 0x22#32, 0x33#32]).len.toNat ∧
    (Segment.ofWords [0x11#32, 0x22#32, 0x33#32]).len.toNat ≤ (3#32 : Word).toNat ∧
    (ls []).store.live 2#32 = false ∧ (ls []).store.live 3#32 = false := by decide

theorem witness_LoadpJumpsOrLoads :
    (ls []).x[(2 : RegIdx)] = 0#32 ∧ ((ls []).setReg 2 1#32).x[(2 : RegIdx)] ≠ 0#32 ∧
    (ls []).store.segment? 1#32 = some (.ofWords [0x11#32, 0x22#32, 0x33#32]) ∧
    (ls []).params.allocOk.admits (ls []).store 3#32 = true := by decide

theorem witness_MapCreatesAZeroedSegment :
    (ls []).params.allocOk.admits (ls []).store 5#32 = true ∧ (ls []).store.pool = 2#32 :: [] ∧
    (prog []).params.allocOk.admits (prog []).store 0#32 = true ∧ (prog []).store.pool = [] ∧
    (prog []).store.table.length < 4294967296 := by decide

theorem witness_UnmapDestroysTheSegment :
    ((ls []).setReg 3 1#32).x[(3 : RegIdx)] ≠ 0#32 ∧ (ls []).store.live ((ls []).setReg 3 1#32).x[(3 : RegIdx)] = true := by
  decide

theorem witness_StoreErrorsFault :
    (ls []).x[(3 : RegIdx)] = 0#32 ∧ ((ls []).setReg 3 2#32).x[(3 : RegIdx)] ≠ 0#32 ∧ (ls []).store.live 2#32 = false ∧
    (ls []).store.segment? 1#32 = some (.ofWords [0x11#32, 0x22#32, 0x33#32]) ∧
    (withParams full (ls [])).params.allocOk.admits (ls []).store 3#32 = false := by decide

/-- The clause about a table of 2^32 slots. -/
theorem witness_StoreErrorsFault_table_full :
    ({ table := List.replicate 4294967296 (some (Segment.zeroed 0#32)), pool := [] } : Store).pool = [] ∧
    4294967296 ≤ (List.replicate 4294967296 (some (Segment.zeroed 0#32))).length :=
  ⟨rfl, List.length_replicate.ge⟩

theorem witness_OutEmitsOneByte :
    ((prog []).setReg 0 255#32).x[(0 : RegIdx)].toNat ≤ 255 ∧ (prog []).env.outputReady = true := by decide

theorem witness_OutAbove255FollowsThePolicy :
    255 < ((prog []).setReg 0 256#32).x[(0 : RegIdx)].toNat ∧ (prog []).params.outGt255 = .fault ∧
    (withParams masked (prog [])).params.outGt255 = .mask ∧ (withParams masked (prog [])).env.outputReady = true := by decide

theorem witness_InReadsOneByteOrEnd :
    (withInput [0x41#8] false (prog [])).io.eofSeen = false ∧
    (withInput [0x41#8] false (prog [])).env.input[(withInput [0x41#8] false (prog [])).io.inPos]? = some 0x41#8 ∧
    (prog []).env.input.length ≤ (prog []).io.inPos ∧ (prog []).env.inputEnded = true ∧
    (prog []).noteEof.io.eofSeen = true := by decide

theorem witness_StreamsWaitForTheEnvironment :
    (withInput [] false (prog [])).io.eofSeen = false ∧
    (withInput [] false (prog [])).env.input.length ≤ (withInput [] false (prog [])).io.inPos ∧
    (withInput [] false (prog [])).env.inputEnded = false ∧ (outputHeld (prog [])).env.outputReady = false ∧
    (outputHeld (prog [])).x[(0 : RegIdx)].toNat ≤ 255 ∧ (withParams masked (outputHeld (prog []))).params.outGt255 = .mask := by
  decide

theorem witness_RegisterInstructionsFrame :
    ∀ i ∈ [Instr.cmov 1 2 3, .sload 1 2 3, .add 1 2 3, .mul 1 2 3, .div 1 2 3, .nand 1 2 3, .loadi 1 5#25],
      (after (exec i ((ls [5#32]).setReg 3 1#32))).isSome = true := by decide

theorem witness_SstoreFrame :
    ∃ t, exec (.sstore 2 3 4) (((ls []).setReg 2 1#32).setReg 3 1#32) = .next t ∧
      Memory.wf (ls []).store = true ∧ t.run = .running := ⟨_, rfl, by decide, by decide⟩

theorem witness_AllocationInstructionsFrame :
    (∃ t, exec (.map 2 4) (ls []) = .next t) ∧ (∃ t, exec (.unmap 3) ((ls []).setReg 3 1#32) = .next t) ∧
    ∃ t, exec (.loadp 2 3) ((ls []).setReg 2 1#32) = .next t := ⟨⟨_, rfl⟩, ⟨_, rfl⟩, ⟨_, rfl⟩⟩

theorem witness_StreamInstructionsFrame :
    (∃ t, exec .halt (prog []) = .next t) ∧ (∃ t, exec (.out 0) (prog []) = .next t) ∧
    ∃ t, exec (.inp 0) (prog []) = .next t := ⟨⟨_, rfl⟩, ⟨_, rfl⟩, ⟨_, rfl⟩⟩

theorem witness_OnlyTheNamedRegisterIsWritten :
    (∃ t, exec (.add 1 2 3) (prog []) = .next t) ∧ instrWrites (.add 1 2 3) ≠ some 2 := ⟨⟨_, rfl⟩, by decide⟩

theorem witness_OnlyTheNamedRegistersAreRead :
    (∃ t, exec (.add 1 2 3) (prog []) = .next t) ∧
    ∀ r ∈ instrReads (.add 1 2 3), ((prog []).setReg 5 9#32).x[r] = (prog []).x[r] := ⟨⟨_, rfl⟩, by decide⟩

theorem witness_FaultsChangeOnlyTheRunState :
    ∃ t, step (prog [0x50000088#32]) = .next t ∧ (prog [0x50000088#32]).run = .running ∧
      t.run = .faulted { cause := .divZero 0#32, pc := 0#32 } := ⟨_, rfl, rfl, rfl⟩

/-- Steps of a running machine: one that goes on (PcMovesAsTheTableSays, StreamsMoveOnlyByOutAndIn,
ArgumentsOfTheRunNeverChange) and one that halts (OnlyHaltEndsWell). -/
theorem witness_steps_of_a_running_machine :
    (∃ t, step (prog [0xA0000000#32]) = .next t ∧ t.run = .running ∧ t.io.out = [0#8]) ∧
    ∃ t, step (prog [0x70000000#32]) = .next t ∧ t.run = .halted := ⟨⟨_, rfl, rfl, by decide⟩, _, rfl, rfl⟩

theorem witness_StatusShowsTheRunState :
    State.reset.run = .running ∧ (State.reset.setRun .halted).run = .halted ∧
    (State.boot .standard .quiet [1#8]).run = .faulted { cause := .bootImage .badLength, pc := 0#32 } ∧
    (State.boot full .quiet [1#8, 2#8, 3#8, 4#8]).run = .faulted { cause := .bootImage .tooManyWords, pc := 0#32 } ∧
    ∀ c ∈ [Cause.decode 0xE0000000#32, .boundsPc 1#32 1#32, .boundsOffset 1#32 3#32, .invalidId 2#32, .divZero 7#32,
        .outputRange 256#32, .resourceExhausted 5#32],
      (State.reset.setRun (.faulted { cause := c, pc := 4#32 })).run = .faulted { cause := c, pc := 4#32 } := by decide

theorem witness_StepKeepsTheInvariant_and_PcNeverWraps :
    (ls [0x1000008B#32]).Inv ∧ (ls [0x1000008B#32]).run = .running ∧
    nextInstr (ls [0x1000008B#32]) = some (.sload 2 1 3) ∧
    (after (step (ls [0x1000008B#32]))).map (·.run) = some .running :=
  ⟨⟨storeInv_of_storeOk _ (by decide), by decide, by decide⟩, by decide, by decide, by decide⟩

theorem witness_EnvironmentMovesKeepTheInvariant : (withInput [0x41#8] false (prog [0#32])).Inv :=
  ⟨storeInv_of_storeOk _ (by decide), by decide, by decide⟩

theorem witness_EveryReachableStateMeetsTheInvariant : Reachable (State.boot .standard .quiet []) := .boot _ _ _

theorem witness_LiveSegmentsAndPoolFillTheTable : (ls [0#32]).store.Inv :=
  storeInv_of_storeOk _ (by decide)

theorem witness_MemWriteChangesOneWord :
    Memory.wf (ls []).store = true ∧ (ls []).store.live 2#32 = false ∧
    (ls []).store.segment? 1#32 = some (.ofWords [0x11#32, 0x22#32, 0x33#32]) ∧
    (Segment.ofWords [0x11#32, 0x22#32, 0x33#32]).len.toNat ≤ (3#32 : Word).toNat ∧
    (2#32 : Word).toNat < (Segment.ofWords [0x11#32, 0x22#32, 0x33#32]).len.toNat := by decide

theorem witness_DeallocateMakesATombstone :
    (ls []).store.live 2#32 = false ∧ (1#32 : Word) ≠ 0#32 ∧ (ls []).store.live 1#32 = true := by decide

/-- The clause about the Allocate that follows: it completes. -/
theorem witness_DeallocateMakesATombstone_reused :
    ∃ st' st'', deallocate (ls []).store 1#32 = .ok st' ∧ allocate (.finite true []) st' 5#32 = .ok (1#32, st'') :=
  ⟨_, _, rfl, rfl⟩

theorem witness_AllocatedSegmentsAreFreshAndZero :
    (ls []).store.Inv ∧ (allocate Params.standard.allocOk (ls []).store 5#32).toOption.map (·.1) = some 2#32 :=
  ⟨storeInv_of_storeOk _ (by decide), by decide⟩

theorem witness_FreedIdentifiersAreReusedLastFirst :
    ∃ (st s1 s2 s3 s4 s5 : Store) (i1 i2 i3 : Word), st.Inv ∧ deallocate st 2#32 = .ok s1 ∧ deallocate s1 1#32 = .ok s2 ∧
      allocate (.finite true []) s2 0#32 = .ok (i1, s3) ∧ allocate (.finite true []) s3 0#32 = .ok (i2, s4) ∧
      allocate (.finite true []) s4 0#32 = .ok (i3, s5) :=
  ⟨{ table := [some (.zeroed 0#32), some (.zeroed 1#32), some (.zeroed 2#32)], pool := [] }, _, _, _, _, _, _, _, _,
    storeInv_of_storeOk _ (by decide), rfl, rfl, rfl, rfl, rfl⟩

theorem witness_StoresToTheProgramAreFetched :
    let s := ((prog [0x2000001A#32, 0xA0000001#32]).setReg 3 1#32).setReg 2 0x70000000#32
    s.Inv ∧ s.run = .running ∧ nextInstr s = some (.sstore 0 3 2) ∧ s.x[(0 : RegIdx)] = 0#32 ∧
    s.x[(3 : RegIdx)] = s.pc + 1#32 ∧ decode s.x[(2 : RegIdx)] = some .halt ∧
    (after (step s)).map (·.run) = some .running :=
  ⟨⟨storeInv_of_storeOk _ (by decide), by decide, by decide⟩, by decide, by decide, by decide, by decide, by decide, by decide⟩

theorem witness_LoadedProgramsAreIndependentCopies :
    ∃ st' st'' st3, (1#32 : Word) ≠ 0#32 ∧ 0 < (ls []).store.table.length ∧
      replaceProgram (.finite true []) (ls []).store 1#32 = .ok st' ∧ memWrite st' 1#32 0#32 9#32 = .ok st'' ∧
      memWrite st' 0#32 0#32 9#32 = .ok st3 := ⟨_, _, _, by decide, by decide, rfl, rfl, rfl⟩

end Sys2Proof.Tests
end

section
/-! PROOFS. The segment store of 20_memory.md: what a store of one word changes and leaves unchanged (R37),
and what freeing an identifier does to the table, to the pool and to the next allocation (R41, R38). -/

namespace Sys2Proof.Machine

/-! ## What a load reads -/

/-- A load looks at the store only through the segment its identifier names. -/
theorem memRead_congr {st st' : Store} {id : Word} (h : st'.segment? id = st.segment? id) (off : Word) :
    memRead st' id off = memRead st id off := by
  simp only [memRead, h]

/-- A load in a live segment: the bounds check of R36, then the word. -/
theorem memRead_of_segment? {st : Store} {id : Word} {g : Segment} (hg : st.segment? id = some g) (off : Word) :
    memRead st id off = if off.toNat < g.len.toNat then .ok (g.word off) else .error (.boundsOffset id off) := by
  simp only [memRead, hg]

/-- An identifier that is not live names no segment. -/
theorem Store.live_eq_false_iff {st : Store} {id : Word} : st.live id = false ↔ st.segment? id = none := by
  simp [Store.live]

/-! ## A completed store (R37) -/

/-- The segment written to, after the write. -/
theorem memWrite_segment?_self {st st' : Store} {id off v : Word} {g : Segment} (hw : memWrite st id off v = .ok st')
    (hg : st.segment? id = some g) : st'.segment? id = some (g.setWord off v) := by
  obtain ⟨g', hg', -, rfl⟩ := memWrite_eq_ok.1 hw
  obtain rfl : g = g' := Option.some.inj (hg.symm.trans hg')
  exact Store.segment?_setSlot_self (Store.lt_of_segment? hg) _

/-- Every other segment is untouched. -/
theorem memWrite_segment?_of_ne {st st' : Store} {id off v id' : Word} (hw : memWrite st id off v = .ok st')
    (h : id' ≠ id) : st'.segment? id' = st.segment? id' := by
  obtain ⟨g, -, -, rfl⟩ := memWrite_eq_ok.1 hw
  exact Store.segment?_setSlot_of_ne st _ h

/-- The pool and the number of slots are untouched. -/
theorem memWrite_pool_length {st st' : Store} {id off v : Word} (hw : memWrite st id off v = .ok st') :
    st'.pool = st.pool ∧ st'.table.length = st.table.length := by
  obtain ⟨g, -, -, rfl⟩ := memWrite_eq_ok.1 hw
  exact ⟨rfl, List.length_set⟩

/-- No segment's word count changes. -/
theorem memWrite_len {st st' : Store} {id off v : Word} (hw : memWrite st id off v = .ok st') (id' : Word) :
    (st'.segment? id').map Segment.len = (st.segment? id').map Segment.len := by
  by_cases hid : id' = id
  · subst hid
    obtain ⟨g, hg, -, -⟩ := memWrite_eq_ok.1 hw
    simp [memWrite_segment?_self hw hg, hg]
  · rw [memWrite_segment?_of_ne hw hid]

/-- The word written reads back, in canonical memory. -/
theorem memRead_memWrite_self {st st' : Store} {id off v : Word} (hwf : Memory.wf st = true)
    (hw : memWrite st id off v = .ok st') : memRead st' id off = .ok v := by
  obtain ⟨g, hg, hlt, -⟩ := memWrite_eq_ok.1 hw
  exact memRead_eq_ok.2 ⟨_, memWrite_segment?_self hw hg, hlt, Segment.word_setWord_self (Memory.wf_segment hwf hg) off v⟩

/-- Every other address reads as before: a word of another segment, or another word of the same one. -/
theorem memRead_memWrite_of_ne {st st' : Store} {id off v id' off' : Word} (hw : memWrite st id off v = .ok st')
    (hne : (id', off') ≠ (id, off)) : memRead st' id' off' = memRead st id' off' := by
  by_cases hid : id' = id
  · subst hid
    have hoff : off' ≠ off := fun e => hne (by rw [e])
    obtain ⟨g, hg, -, -⟩ := memWrite_eq_ok.1 hw
    rw [memRead_of_segment? (memWrite_segment?_self hw hg), memRead_of_segment? hg, Segment.setWord_len,
      Segment.word_setWord_of_ne g v hoff]
  · exact memRead_congr (memWrite_segment?_of_ne hw hid) off'

/-! ## A freed identifier (R41) and its reuse (R38) -/

/-- The slot of a freed identifier is the tombstone. -/
theorem deallocate_slot {st st' : Store} {id : Word} (hd : deallocate st id = .ok st') :
    st'.table[id.toNat]? = some none := by
  obtain ⟨-, hlive, rfl⟩ := deallocate_eq_ok.1 hd
  obtain ⟨g, hg⟩ := Store.live_iff.1 hlive
  exact List.getElem?_set_self (Store.lt_of_segment? hg)

/-- The freed identifier is the top of the pool (D5), and the table keeps its length. -/
theorem deallocate_pool_length {st st' : Store} {id : Word} (hd : deallocate st id = .ok st') :
    st'.pool = id :: st.pool ∧ st'.table.length = st.table.length := by
  obtain ⟨-, -, rfl⟩ := deallocate_eq_ok.1 hd
  exact ⟨rfl, List.length_set⟩

/-- Every other segment is untouched. -/
theorem deallocate_segment?_of_ne {st st' : Store} {id id' : Word} (hd : deallocate st id = .ok st') (h : id' ≠ id) :
    st'.segment? id' = st.segment? id' := by
  obtain ⟨-, -, rfl⟩ := deallocate_eq_ok.1 hd
  exact Store.segment?_setSlot_of_ne st _ h

/-- With a pool that is not empty, an allocation answers its top and pops it. -/
theorem allocate_of_pool_cons {p : AllocPolicy} {st st' : Store} {n id top : Word} {rest : List Word}
    (hp : st.pool = top :: rest) (ha : allocate p st n = .ok (id, st')) :
    id = top ∧ st' = { st.setSlot top (some (.zeroed n)) with pool := rest } := by
  obtain ⟨-, ⟨rest', hp', rfl⟩ | ⟨hnil, -⟩⟩ := allocate_eq_ok.1 ha
  · obtain ⟨rfl, rfl⟩ := List.cons.inj (hp.symm.trans hp')
    exact ⟨rfl, rfl⟩
  · cases hp.symm.trans hnil

/-- The allocation after a deallocation reuses the identifier for a fresh segment of n words. -/
theorem allocate_deallocate {p : AllocPolicy} {st st' st'' : Store} {n id id' : Word} (hd : deallocate st id = .ok st')
    (ha : allocate p st' n = .ok (id', st'')) : id' = id ∧ st''.segment? id = some (.zeroed n) := by
  obtain ⟨hpool, -⟩ := deallocate_pool_length hd
  obtain ⟨rfl, rfl⟩ := allocate_of_pool_cons hpool ha
  have hin : id'.toNat < st'.table.length := (List.getElem?_eq_some_iff.1 (deallocate_slot hd)).1
  exact ⟨rfl, Store.segment?_setSlot_self hin _⟩

end Sys2Proof.Machine

namespace Sys2Proof.Claims

open Sys2Proof.Machine

/-- Settles O54: the two refusals are those of the load of the same address (R36); a store that completes
replaces one segment by itself with one word set. -/
theorem memWriteChangesOneWord : Obligations.MemWriteChangesOneWord := by
  intro st id off v hwf
  refine ⟨fun hdead => ?_, fun g hg hle => ?_, fun g hg hlt => ?_⟩
  · exact memWrite_eq_error.2 (memRead_eq_error.2 (.inl ⟨Store.live_eq_false_iff.1 hdead, rfl⟩))
  · exact memWrite_eq_error.2 (memRead_eq_error.2 (.inr ⟨g, hg, hle, rfl⟩))
  · have hw := (memWrite_eq_ok (v := v)).2 ⟨g, hg, hlt, rfl⟩
    exact ⟨_, hw, memRead_memWrite_self hwf hw, fun _ _ hne => memRead_memWrite_of_ne hw hne, memWrite_len hw,
      memWrite_pool_length hw⟩

/-- Settles O55: the refusals are those of `deallocate_eq_error`; a deallocation that completes leaves the
identifier on top of the pool, where the next allocation takes it. -/
theorem deallocateMakesATombstone : Obligations.DeallocateMakesATombstone := by
  intro st id
  refine ⟨fun hbad => deallocate_eq_error.2 ⟨rfl, hbad⟩, fun h0 hlive => ?_⟩
  have hd := deallocate_eq_ok.2 ⟨h0, hlive, rfl⟩
  obtain ⟨hpool, hlength⟩ := deallocate_pool_length hd
  exact ⟨_, hd, deallocate_slot hd, hpool, hlength, fun _ hne => deallocate_segment?_of_ne hd hne,
    fun _ _ _ _ ha => allocate_deallocate hd ha⟩

end Sys2Proof.Claims
end

section
/-! PROOFS about the encoding (30_encoding.md): which bits of a word its decoding reads, and what a running
machine does with the word it fetches. -/

namespace Sys2Proof

/-! ## Fields under a mask -/

/-- A mask whose bits hi to lo are all ones leaves that field as it is. -/
theorem bits_and_of_ones {m : Word} {hi lo : Nat} (hm : bits m hi lo = 2 ^ (hi - lo + 1) - 1) (v : Word) :
    bits (v &&& m) hi lo = bits v hi lo := by
  unfold bits at hm ⊢
  rw [BitVec.toNat_and, Nat.shiftRight_and_distrib, Nat.and_mod_two_pow, hm, Nat.and_two_pow_sub_one_eq_mod,
    Nat.mod_mod]

/-- So it names the same register. -/
theorem regField_and_of_ones {m : Word} {hi lo : Nat} (hm : bits m hi lo = 2 ^ (hi - lo + 1) - 1) (v : Word) :
    regField (v &&& m) hi lo = regField v hi lo := by
  unfold regField
  rw [bits_and_of_ones hm]

/-! ## Three-register words (R81, R66) -/

/-- The words with opcode 0 to 12 are those below 0xD0000000. -/
theorem opcode_lt_13_iff (w : Word) : bits w 31 28 < 13 ↔ w.toNat < 0xD0000000 := by
  have hw := w.isLt
  simp only [bits, Nat.shiftRight_eq_div_pow]
  omega

/-- The decoder on an opcode of 0 to 12. -/
theorem decodeWord_of_opcode_lt {w : Word} (h : bits w 31 28 < 13) :
    decodeWord w = .three ⟨bits w 31 28, h⟩ (regField w 8 6) (regField w 5 3) (regField w 2 0) := by
  have hne : bits w 31 28 ≠ 13 := Nat.ne_of_lt h
  simp only [decodeWord, hne, h, if_false, dif_pos]

/-- Every opcode of 0 to 12 is an instruction's, whatever the fields hold. -/
theorem exists_instr?_three (op : Fin 13) (a b c : RegIdx) : ∃ i, (Decoded.three op a b c).instr? = some i := by
  fin_cases op <;> exact ⟨_, rfl⟩

/-- The decoder does not read bits 27 to 9 of a three-register word: the opcode and the three register fields
lie in the mask. -/
theorem decodeWord_clear_ignored {w : Word} (h : bits w 31 28 < 13) :
    decodeWord (w &&& 0xF00001FF#32) = decodeWord w := by
  have hop : bits (w &&& 0xF00001FF#32) 31 28 = bits w 31 28 := bits_and_of_ones (by decide) w
  have ha : regField (w &&& 0xF00001FF#32) 8 6 = regField w 8 6 := regField_and_of_ones (by decide) w
  have hb : regField (w &&& 0xF00001FF#32) 5 3 = regField w 5 3 := regField_and_of_ones (by decide) w
  have hc : regField (w &&& 0xF00001FF#32) 2 0 = regField w 2 0 := regField_and_of_ones (by decide) w
  rw [decodeWord_of_opcode_lt h, decodeWord_of_opcode_lt (hop ▸ h)]
  simp only [hop, ha, hb, hc]

end Sys2Proof

namespace Sys2Proof.Machine

/-! ## The step of a running machine whose fetch succeeds (R91) -/

/-- The word a load at (0, pc) reads is the word fetched. -/
theorem fetch_eq_ok_iff_memRead {s : State} {w : Word} : fetch s = .ok w ↔ memRead s.store 0#32 s.pc = .ok w :=
  fetch_eq_ok.trans memRead_eq_ok.symm

/-- A running machine executes the instruction its word at the pc decodes to. -/
theorem step_eq_exec_of_memRead {s : State} {w : Word} {i : Instr} (hrun : s.run = .running)
    (hread : memRead s.store 0#32 s.pc = .ok w) (hdec : decode w = some i) : step s = exec i s := by
  have hf : fetch s = .ok w := fetch_eq_ok_iff_memRead.2 hread
  simp only [step, hrun, hf, orRaise_ok, hdec]

end Sys2Proof.Machine

namespace Sys2Proof.Claims

open Sys2Proof.Machine

/-- Settles O5: the decoder reads only the opcode and the register fields of the word, and the step executes
what it decodes to. -/
theorem ignoredBitsChangeNothing : Obligations.IgnoredBitsChangeNothing := by
  intro w hlt
  have hop : bits w 31 28 < 13 := (opcode_lt_13_iff w).2 hlt
  obtain ⟨i, hi⟩ : ∃ i, decode w = some i := by
    rw [decode, decodeWord_of_opcode_lt hop]
    exact exists_instr?_three ..
  have hclear : decode (w &&& 0xF00001FF#32) = some i := by
    rw [decode, decodeWord_clear_ignored hop]
    exact hi
  exact ⟨i, hi, hclear, fun _ hrun hread => step_eq_exec_of_memRead hrun hread hi⟩

end Sys2Proof.Claims
end


section
/-! PROOFS about the decoder (40_fetch_decode_dispatch.md R81): the fields it reads are the bit vectors cut
out of the word, and its result for each opcode. -/

namespace Sys2Proof

/-! ## A field as a bit vector -/

/-- The number in bits hi to lo is that of the bit vector cut out there. -/
theorem toNat_extractLsb'_eq_bits (v : Word) (hi lo : Nat) : (v.extractLsb' lo (hi - lo + 1)).toNat = bits v hi lo :=
  BitVec.extractLsb'_toNat ..

/-- The bit vector cut out at bits hi to lo is x exactly when the number in that field is x's. -/
theorem extractLsb'_eq_iff_bits {v : Word} {hi lo : Nat} {x : BitVec (hi - lo + 1)} :
    v.extractLsb' lo (hi - lo + 1) = x ↔ bits v hi lo = x.toNat := by
  rw [← toNat_extractLsb'_eq_bits, BitVec.toNat_inj]

/-- A field read as a bit vector is made of the number in it. -/
theorem ofNat_bits_eq_extractLsb' (v : Word) (hi lo : Nat) :
    BitVec.ofNat (hi - lo + 1) (bits v hi lo) = v.extractLsb' lo (hi - lo + 1) := by
  rw [← toNat_extractLsb'_eq_bits, BitVec.ofNat_toNat, BitVec.setWidth_eq]

/-- The register a 3-bit field names is its bit vector. -/
theorem regField_eq_toFin_extractLsb' (v : Word) (lo : Nat) : regField v (lo + 2) lo = (v.extractLsb' lo 3).toFin := by
  apply Fin.ext
  simp [regField, bits]

/-! ## The decoder on the opcodes that are no three-register instruction -/

/-- The decoder on opcode 13. -/
theorem decodeWord_of_opcode_eq_13 {w : Word} (h : bits w 31 28 = 13) :
    decodeWord w = .loadImm (regField w 27 25) (BitVec.ofNat 25 (bits w 24 0)) := by
  simp only [decodeWord, h, if_true]

/-- The decoder on opcodes 14 and 15. -/
theorem decodeWord_of_opcode_gt {w : Word} (h : 13 < bits w 31 28) : decodeWord w = .invalid w := by
  have hne : bits w 31 28 ≠ 13 := Nat.ne_of_gt h
  have hnlt : ¬ bits w 31 28 < 13 := Nat.not_lt_of_gt h
  simp only [decodeWord, hne, hnlt, if_false, dif_neg, not_false_eq_true]

end Sys2Proof

namespace Sys2Proof.Claims

/-- The fields A, B and C of a three-register word are the decoder's. -/
theorem fields_eq_regField (w : Word) :
    fieldA w = regField w 8 6 ∧ fieldB w = regField w 5 3 ∧ fieldC w = regField w 2 0 :=
  ⟨(regField_eq_toFin_extractLsb' w 6).symm, (regField_eq_toFin_extractLsb' w 3).symm,
    (regField_eq_toFin_extractLsb' w 0).symm⟩

/-- Settles O3: the opcode as a number selects the decoder's branch, and each field the branch reads is the
bit vector cut out of the word. -/
theorem decoderReadsTheFieldsBitForBit : Obligations.DecoderReadsTheFieldsBitForBit := by
  intro w
  have hopcode (x : BitVec 4) : w.extractLsb' 28 4 = x ↔ bits w 31 28 = x.toNat :=
    extractLsb'_eq_iff_bits (hi := 31) (lo := 28)
  refine ⟨fun h13 => ?loadImm, fun op hop => ?three, fun hbad => ?invalid⟩
  case loadImm =>
    rw [decodeWord_of_opcode_eq_13 ((hopcode _).1 h13), ofNat_bits_eq_extractLsb' w 24 0,
      regField_eq_toFin_extractLsb' w 25]
  case three =>
    have hval : bits w 31 28 = op.val := by
      have hop' := (hopcode _).1 hop
      rwa [BitVec.toNat_ofNat, Nat.mod_eq_of_lt (by omega)] at hop'
    obtain ⟨ha, hb, hc⟩ := fields_eq_regField w
    rw [decodeWord_of_opcode_lt (hval ▸ op.isLt), ha, hb, hc]
    simp only [hval]
  case invalid =>
    apply decodeWord_of_opcode_gt
    rcases hbad with h14 | h15
    · rw [(hopcode _).1 h14]; decide
    · rw [(hopcode _).1 h15]; decide

end Sys2Proof.Claims
end

section
/-! PROOFS about the register moves CMOV and LOADI (41_move.md): the instruction a word with a row's match
decodes to, and the state in which an instruction that completes by a register write ends. -/

namespace Sys2Proof.Claims

open Sys2Proof.Machine

/-! ## Words with a row's match (R65) -/

/-- The mask 0xF0000000 keeps the opcode: a word has the opcode of the match it meets. -/
theorem opcode_of_match {w m : Word} (h : w &&& 0xF0000000#32 = m) : w.extractLsb' 28 4 = m.extractLsb' 28 4 := by
  have hbits : bits m 31 28 = bits w 31 28 := by
    rw [← h]
    exact bits_and_of_ones (by decide) w
  exact (extractLsb'_eq_iff_bits (hi := 31) (lo := 28)).2 (hbits.symm.trans (toNat_extractLsb'_eq_bits m 31 28).symm)

/-- A match with the opcode of a three-register instruction is that instruction's row. -/
theorem isRow_of_opcode {m : Word} {i : RegIdx → RegIdx → RegIdx → Instr} (op : Fin 13)
    (hop : m.extractLsb' 28 4 = BitVec.ofNat 4 op.val)
    (hi : ∀ a b c, (Decoded.three op a b c).instr? = some (i a b c)) : IsRow m i := by
  intro w hw
  obtain ⟨-, hthree, -⟩ := decoderReadsTheFieldsBitForBit w
  rw [decode, hthree op ((opcode_of_match hw).trans hop)]
  exact hi ..

end Sys2Proof.Claims

namespace Sys2Proof.Machine

/-! ## Instructions that complete by a register write (R87) -/

/-- The two fields that differ after a completed register write. -/
theorem completed_setReg (s : State) (a : RegIdx) (v : Word) :
    completed (s.setReg a v) = .next { s with x := s.x.set a v, pc := s.pc + 1#32 } := rfl

/-- CMOV's test holds of every word but 0. -/
theorem condition_iff {c : Word} : condition c = true ↔ c ≠ 0#32 := bne_iff_ne

/-- CMOV with its test met is a register write. -/
theorem exec_cmov_of_ne {a b c : RegIdx} {s : State} (h : s.reg c ≠ 0#32) :
    exec (.cmov a b c) s = completed (s.setReg a (s.reg b)) := by
  simp only [exec, execCmov, if_pos (condition_iff.2 h)]

/-- CMOV with its test not met only moves the pc. -/
theorem exec_cmov_of_eq {a b c : RegIdx} {s : State} (h : s.reg c = 0#32) : exec (.cmov a b c) s = completed s := by
  have hnot : ¬ condition (s.reg c) = true := fun hc => condition_iff.1 hc h
  simp only [exec, execCmov, if_neg hnot]

/-- The immediate keeps its value: it is not sign-extended (R101). -/
theorem immWord_toNat (imm : Imm) : (immWord imm).toNat = imm.toNat :=
  BitVec.toNat_setWidth_of_le (by decide)

end Sys2Proof.Machine

namespace Sys2Proof.Claims

open Sys2Proof.Machine

/-- Settles O19: the row of opcode 0, and the two cases of the test of the whole register. -/
theorem cmovMovesWhenNotZero : Obligations.CmovMovesWhenNotZero := by
  refine ⟨isRow_of_opcode 0 (by decide) fun _ _ _ => rfl, fun a b c s => ⟨fun hne => ?moves, fun h0 => ?stays⟩⟩
  case moves => exact (exec_cmov_of_ne hne).trans (completed_setReg ..)
  case stays => exact exec_cmov_of_eq h0

/-- Settles O20: the decoder's clause for opcode 13, and a register write of the zero-extended immediate. -/
theorem loadiWritesTheImmediate : Obligations.LoadiWritesTheImmediate := by
  refine ⟨fun w hw => ?encoding, fun a imm s => ⟨immWord imm, immWord_toNat imm, ?result⟩⟩
  case encoding =>
    obtain ⟨hloadImm, -, -⟩ := decoderReadsTheFieldsBitForBit w
    rw [decode, hloadImm ((opcode_of_match hw).trans (by decide)), Decoded.instr?]
  case result => exact completed_setReg s a (immWord imm)

end Sys2Proof.Claims
end

section
/-! PROOFS about ADD, MUL and NAND (43_arithmetic.md): each is a register write of a function of the two
source words (R120), and what that function's result is as a number or bit for bit. -/

namespace Sys2Proof.Machine

/-! ## The shared shape (R120) -/

/-- The two fields that differ after a binary operation: it always completes, by a register write. -/
theorem binary_eq (f : Word → Word → Word) (a b c : RegIdx) (s : State) :
    binary f a b c s = .next { s with x := s.x.set a (f s.x[b] s.x[c]), pc := s.pc + 1#32 } :=
  completed_setReg s a _

/-! ## The results (R121, R122, R124) -/

/-- The sum is taken mod 2^32. -/
theorem addWord_toNat (m n : Word) : (addWord m n).toNat = (m.toNat + n.toNat) % 2 ^ 32 :=
  (BitVec.toNat_ofNat ..).trans (Nat.mod_mod ..)

/-- The product is taken mod 2^32. -/
theorem mulWord_toNat (m n : Word) : (mulWord m n).toNat = (m.toNat * n.toNat) % 2 ^ 32 :=
  (BitVec.toNat_ofNat ..).trans (Nat.mod_mod ..)

/-- A bit of the NAND is set unless it is set in both words. -/
theorem nandWord_getLsbD (m n : Word) {k : Nat} (hk : k < 32) :
    (nandWord m n).getLsbD k = !(m.getLsbD k && n.getLsbD k) := by
  rw [nandWord, BitVec.getLsbD_not, BitVec.getLsbD_and, decide_eq_true hk, Bool.true_and]

end Sys2Proof.Machine

namespace Sys2Proof.Claims

open Sys2Proof.Machine

/-- Settles O21: the row of opcode 3, and a register write of the sum. -/
theorem addIsModulo : Obligations.AddIsModulo :=
  ⟨isRow_of_opcode 3 (by decide) fun _ _ _ => rfl,
    fun a b c s => ⟨_, addWord_toNat s.x[b] s.x[c], binary_eq addWord a b c s⟩⟩

/-- Settles O22: the row of opcode 4, and a register write of the product. -/
theorem mulIsModulo : Obligations.MulIsModulo :=
  ⟨isRow_of_opcode 4 (by decide) fun _ _ _ => rfl,
    fun a b c s => ⟨_, mulWord_toNat s.x[b] s.x[c], binary_eq mulWord a b c s⟩⟩

/-- Settles O23: the row of opcode 6, and a register write of the NAND. -/
theorem nandIsBitwise : Obligations.NandIsBitwise :=
  ⟨isRow_of_opcode 6 (by decide) fun _ _ _ => rfl,
    fun a b c s => ⟨_, fun _ hk => nandWord_getLsbD s.x[b] s.x[c] hk, binary_eq nandWord a b c s⟩⟩

end Sys2Proof.Claims
end

section
/-! PROOFS about the boot image (70_reset_and_hazards.md R221): its bytes are big-endian words in file order,
and the segment 0 of a machine that accepts it holds those words. -/

namespace Sys2Proof.Machine

/-! ## From bytes to words -/

/-- A byte as a word keeps its value. -/
theorem byteWord_toNat (b : Byte) : (byteWord b).toNat = b.toNat :=
  BitVec.toNat_setWidth_of_le (by decide)

/-- A byte shifted within a word loses no bit. -/
theorem byteWord_shiftLeft_toNat (b : Byte) {k : Nat} (hk : k ≤ 24) : (byteWord b <<< k).toNat = b.toNat <<< k := by
  have hfits : b.toNat <<< k < 2 ^ 32 := calc
    b.toNat <<< k = b.toNat * 2 ^ k := Nat.shiftLeft_eq ..
    _ < 2 ^ 8 * 2 ^ k := Nat.mul_lt_mul_of_pos_right b.isLt (Nat.two_pow_pos k)
    _ ≤ 2 ^ 8 * 2 ^ 24 := Nat.mul_le_mul_left _ (Nat.pow_le_pow_right (by decide) hk)
  rw [BitVec.toNat_shiftLeft, byteWord_toNat, Nat.mod_eq_of_lt hfits]

/-- Four bytes shifted into place are the four bytes side by side, the first the most significant. -/
theorem wordOfBytes_eq_append (b0 b1 b2 b3 : Byte) : wordOfBytes b0 b1 b2 b3 = b0 ++ b1 ++ b2 ++ b3 := by
  apply BitVec.eq_of_toNat_eq
  calc (wordOfBytes b0 b1 b2 b3).toNat
      = b0.toNat <<< 24 ||| b1.toNat <<< 16 ||| b2.toNat <<< 8 ||| b3.toNat := by
        simp only [wordOfBytes, BitVec.toNat_or, byteWord_shiftLeft_toNat, byteWord_toNat, Nat.reduceLeDiff]
    _ = ((b0.toNat <<< 8 ||| b1.toNat) <<< 8 ||| b2.toNat) <<< 8 ||| b3.toNat := by
        simp only [Nat.shiftLeft_or_distrib, ← Nat.shiftLeft_add]
    _ = (b0 ++ b1 ++ b2 ++ b3).toNat := by simp only [BitVec.toNat_append]

/-- The first four bytes give the first word, the other bytes the other words. -/
theorem wordsOfImage_cons_eq_some {b0 b1 b2 b3 : Byte} {rest : List Byte} {ws : List Word} :
    wordsOfImage (b0 :: b1 :: b2 :: b3 :: rest) = some ws ↔
      ∃ ws', wordsOfImage rest = some ws' ∧ wordOfBytes b0 b1 b2 b3 :: ws' = ws :=
  Option.map_eq_some_iff

/-- An image of 4n bytes is an image of n words. -/
theorem exists_wordsOfImage_of_length {image : List Byte} {n : Nat} (h : image.length = 4 * n) :
    ∃ ws, wordsOfImage image = some ws ∧ ws.length = n := by
  induction n generalizing image with
  | zero =>
    obtain rfl := List.length_eq_zero_iff.1 h
    exact ⟨[], rfl, rfl⟩
  | succ n ih =>
    match image with
    | [] | [_] | [_, _] | [_, _, _] => simp only [List.length_cons, List.length_nil] at h; omega
    | b0 :: b1 :: b2 :: b3 :: rest =>
      obtain ⟨ws, hws, rfl⟩ := ih (image := rest) (by simp only [List.length_cons] at h; omega)
      exact ⟨_, wordsOfImage_cons_eq_some.2 ⟨ws, hws, rfl⟩, rfl⟩

/-- Word k is made of the bytes 4k to 4k + 3. -/
theorem wordsOfImage_getElem? {image : List Byte} {ws : List Word} (h : wordsOfImage image = some ws) {k : Nat}
    {b0 b1 b2 b3 : Byte} (h0 : image[4 * k]? = some b0) (h1 : image[4 * k + 1]? = some b1)
    (h2 : image[4 * k + 2]? = some b2) (h3 : image[4 * k + 3]? = some b3) :
    ws[k]? = some (wordOfBytes b0 b1 b2 b3) := by
  induction image using wordsOfImage.induct generalizing ws k with
  | case1 => simp at h0
  | case2 c0 c1 c2 c3 rest ih =>
    obtain ⟨ws', hws', rfl⟩ := wordsOfImage_cons_eq_some.1 h
    cases k with
    | zero =>
      obtain rfl : c0 = b0 := Option.some.inj h0
      obtain rfl : c1 = b1 := Option.some.inj h1
      obtain rfl : c2 = b2 := Option.some.inj h2
      obtain rfl : c3 = b3 := Option.some.inj h3
      rfl
    | succ k => exact ih hws' h0 h1 h2 h3
  | case3 image hnil hcons => simp [wordsOfImage.eq_3 image hnil hcons] at h

/-! ## The words in segment 0 -/

/-- The segment of a sequence of words has as many words, when their count fits a word. -/
theorem Segment.ofWords_len_toNat {ws : List Word} (h : ws.length < Config.maxSlots) :
    (Segment.ofWords ws).len.toNat = ws.length :=
  Nat.mod_eq_of_lt h

/-- The segment of a sequence of words holds them in order from offset 0. -/
theorem Segment.ofWords_word {ws : List Word} (h : ws.length < Config.maxSlots) {k : Nat} (hk : k < ws.length) :
    (Segment.ofWords ws).word (BitVec.ofNat 32 k) = ws[k] := by
  have hoff : (BitVec.ofNat 32 k).toNat = 0 + k := (Nat.mod_eq_of_lt (hk.trans h)).trans (Nat.zero_add k).symm
  rw [Segment.word, hoff]
  exact cellRead_cellsOf ws 0 k hk

/-- An accepted image is a sequence of words, fewer than 2^32 of them. -/
theorem of_loadImage_eq_ok {p : AllocPolicy} {image : List Byte} {ws : List Word} (h : loadImage p image = .ok ws) :
    wordsOfImage image = some ws ∧ ws.length < Config.maxSlots := by
  unfold loadImage at h
  split at h
  next => cases h
  next ws' hws =>
    split at h
    next hfits =>
      cases h
      refine ⟨hws, ?_⟩
      obtain rfl | ⟨hlt, -⟩ := hfits
      · decide
      · exact hlt
    next => cases h

/-- The machine that accepts an image runs, with the image's words in segment 0. -/
theorem State.boot_of_loadImage {p : Params} {image : List Byte} {ws : List Word}
    (h : loadImage p.allocOk image = .ok ws) (e : Environment) :
    State.boot p e image = bootState p e (.ofWords ws) .running := by
  rw [State.boot, h]

/-- Segment 0 of a booted machine is the segment it was booted with. -/
@[simp] theorem bootState_segment?_zero (p : Params) (e : Environment) (g : Segment) (r : RunState) :
    (bootState p e g r).store.segment? 0#32 = some g := rfl

end Sys2Proof.Machine

namespace Sys2Proof.Claims

open Sys2Proof.Machine

/-- Settles O9: by induction along the image for its words, then by what the segment of those words reads. -/
theorem imageIsBigEndianWords : Obligations.ImageIsBigEndianWords := by
  intro image n himage
  obtain ⟨ws, hws, hlen⟩ := exists_wordsOfImage_of_length himage
  refine ⟨ws, hws, hlen, fun k b0 b1 b2 b3 h0 h1 h2 h3 => ?bytes, fun p e hload => ?segment⟩
  case bytes => rw [wordsOfImage_getElem? hws h0 h1 h2 h3, wordOfBytes_eq_append]
  case segment =>
    obtain ⟨-, hlt⟩ := of_loadImage_eq_ok hload
    have hlen0 := Segment.ofWords_len_toNat hlt
    rw [State.boot_of_loadImage hload]
    refine ⟨⟨_, bootState_segment?_zero .., hlen0.trans hlen⟩, fun k w hk => ?_⟩
    obtain ⟨hbound, rfl⟩ := List.getElem?_eq_some_iff.1 hk
    have hoff : (BitVec.ofNat 32 k).toNat < (Segment.ofWords ws).len.toNat :=
      hlen0 ▸ (Nat.mod_le k _).trans_lt hbound
    exact memRead_eq_ok.2 ⟨_, bootState_segment?_zero .., hoff, Segment.ofWords_word hlt hbound⟩

end Sys2Proof.Claims
end

section
/-! PROOFS about the canonical encoding (30_encoding.md R71): the number an encoded word is, the fields read back
from it, and what the ignored bits and unused fields of a word leave of it. -/

namespace Sys2Proof

/-! ## The fields of a canonical word (R61 to R63) -/

/-- Disjoint fields side by side add up: a field below the place where the next one starts. -/
theorem or_toNat_of_lt {u v : Word} {k n : Nat} (hu : u.toNat = n * 2 ^ k) (hv : v.toNat < 2 ^ k) :
    (u ||| v).toNat = n * 2 ^ k + v.toNat := by
  rw [BitVec.toNat_or, hu, Nat.mul_comm, Nat.two_pow_add_eq_or_of_lt hv]

/-- A number shifted into place within a word. -/
theorem ofNat_shiftLeft_toNat {n k : Nat} (h : n * 2 ^ k < 2 ^ 32) : (BitVec.ofNat 32 n <<< k).toNat = n * 2 ^ k := by
  have hn : n < 2 ^ 32 := (Nat.le_mul_of_pos_right n (Nat.two_pow_pos k)).trans_lt h
  rw [BitVec.toNat_shiftLeft, BitVec.toNat_ofNat, Nat.mod_eq_of_lt hn, Nat.shiftLeft_eq, Nat.mod_eq_of_lt h]

/-- The canonical word of a three-register instruction as a number. -/
theorem encodeThree_toNat {op : Nat} (hop : op < 16) (a b c : RegIdx) :
    (encodeThree op a b c).toNat = op * 2 ^ 28 + a.val * 2 ^ 6 + b.val * 2 ^ 3 + c.val := by
  have ho : (BitVec.ofNat 32 op <<< 28).toNat = op * 2 ^ 28 := ofNat_shiftLeft_toNat (by omega)
  have ha : (BitVec.ofNat 32 a.val <<< 6).toNat = a.val * 2 ^ 6 := ofNat_shiftLeft_toNat (by omega)
  have hb : (BitVec.ofNat 32 b.val <<< 3).toNat = b.val * 2 ^ 3 := ofNat_shiftLeft_toNat (by omega)
  have hc : (BitVec.ofNat 32 c.val).toNat = c.val := Nat.mod_eq_of_lt (by omega)
  have hoa := or_toNat_of_lt ho (ha ▸ (by omega) : (BitVec.ofNat 32 a.val <<< 6).toNat < 2 ^ 28)
  have hoab := or_toNat_of_lt (k := 6) (n := op * 2 ^ 22 + a.val) (v := BitVec.ofNat 32 b.val <<< 3)
    (by rw [hoa, ha]; omega) (by rw [hb]; omega)
  have hoabc := or_toNat_of_lt (k := 3) (n := op * 2 ^ 25 + a.val * 2 ^ 3 + b.val) (v := BitVec.ofNat 32 c.val)
    (by rw [hoab, hb]; omega) (by rw [hc]; omega)
  rw [encodeThree, hoabc, hc]
  omega

/-- The canonical word of LOADI as a number. -/
theorem encodeImm_toNat (a : RegIdx) (imm : Imm) :
    (encodeImm a imm).toNat = 13 * 2 ^ 28 + a.val * 2 ^ 25 + imm.toNat := by
  have himm : (imm.setWidth 32).toNat = imm.toNat := BitVec.toNat_setWidth_of_le (by decide)
  have ho : (13#32 <<< 28).toNat = 13 * 2 ^ 28 := ofNat_shiftLeft_toNat (by decide)
  have ha : (BitVec.ofNat 32 a.val <<< 25).toNat = a.val * 2 ^ 25 := ofNat_shiftLeft_toNat (by omega)
  have hoa := or_toNat_of_lt ho (ha ▸ (by omega) : (BitVec.ofNat 32 a.val <<< 25).toNat < 2 ^ 28)
  have hoai := or_toNat_of_lt (k := 25) (n := 13 * 2 ^ 3 + a.val) (v := imm.setWidth 32)
    (by rw [hoa, ha]; omega) (by rw [himm]; exact imm.isLt)
  rw [encodeImm, hoai, himm]
  omega

/-- The fields of a three-register word: the opcode, 19 zeros and the three registers. -/
theorem bits_encodeThree {op : Nat} (hop : op < 16) (a b c : RegIdx) :
    bits (encodeThree op a b c) 31 28 = op ∧ bits (encodeThree op a b c) 27 9 = 0 ∧
      bits (encodeThree op a b c) 8 6 = a.val ∧ bits (encodeThree op a b c) 5 3 = b.val ∧
        bits (encodeThree op a b c) 2 0 = c.val := by
  simp only [bits, encodeThree_toNat hop, Nat.shiftRight_eq_div_pow]
  omega

/-- The fields of a LOADI word: the opcode, the register and the immediate. -/
theorem bits_encodeImm (a : RegIdx) (imm : Imm) :
    bits (encodeImm a imm) 31 28 = 13 ∧ bits (encodeImm a imm) 27 25 = a.val ∧
      bits (encodeImm a imm) 24 0 = imm.toNat := by
  have himm := imm.isLt
  simp only [bits, encodeImm_toNat, Nat.shiftRight_eq_div_pow]
  omega

/-- The register a field names has the field's number. -/
theorem regField_val (v : Word) (lo : Nat) : (regField v (lo + 2) lo).val = bits v (lo + 2) lo := by
  have hlt : bits v (lo + 2) lo < 8 := (Nat.mod_lt _ (Nat.two_pow_pos _)).trans_eq (by simp)
  exact Nat.mod_eq_of_lt hlt

/-- A field that holds a register's number names that register. -/
theorem regField_eq_of_bits {v : Word} {lo : Nat} {r : RegIdx} (h : bits v (lo + 2) lo = r.val) :
    regField v (lo + 2) lo = r :=
  Fin.ext ((regField_val v lo).trans h)

/-! ## Decoding a canonical word -/

/-- The decoder reads the opcode and the three registers back. -/
theorem decode_encodeThree (op : Fin 13) (a b c : RegIdx) :
    decode (encodeThree op.val a b c) = (Decoded.three op a b c).instr? := by
  obtain ⟨hop, -, ha, hb, hc⟩ := bits_encodeThree (op := op.val) (by omega) a b c
  rw [decode, decodeWord_of_opcode_lt (hop.trans_lt op.isLt), regField_eq_of_bits ha, regField_eq_of_bits hb,
    regField_eq_of_bits hc]
  simp only [hop]

/-- The decoder reads the register and the immediate of LOADI back. -/
theorem decode_encodeImm (a : RegIdx) (imm : Imm) : decode (encodeImm a imm) = some (.loadi a imm) := by
  obtain ⟨hop, ha, himm⟩ := bits_encodeImm a imm
  rw [decode, decodeWord_of_opcode_eq_13 hop, regField_eq_of_bits ha, himm, BitVec.ofNat_toNat, BitVec.setWidth_eq,
    Decoded.instr?]

/-- Decoding the canonical word of an instruction gives the instruction. -/
theorem decode_encode (i : Instr) : decode (encode i) = some i := by
  cases i with
  | cmov a b c => exact decode_encodeThree 0 a b c
  | sload a b c => exact decode_encodeThree 1 a b c
  | sstore a b c => exact decode_encodeThree 2 a b c
  | add a b c => exact decode_encodeThree 3 a b c
  | mul a b c => exact decode_encodeThree 4 a b c
  | div a b c => exact decode_encodeThree 5 a b c
  | nand a b c => exact decode_encodeThree 6 a b c
  | halt => exact decode_encodeThree 7 0 0 0
  | map b c => exact decode_encodeThree 8 0 b c
  | unmap c => exact decode_encodeThree 9 0 0 c
  | out c => exact decode_encodeThree 10 0 0 c
  | inp c => exact decode_encodeThree 11 0 0 c
  | loadp b c => exact decode_encodeThree 12 0 b c
  | loadi a imm => exact decode_encodeImm a imm

/-- No two instructions have the same canonical word. -/
theorem encode_injective : Function.Injective encode := fun i j h =>
  Option.some.inj (by rw [← decode_encode i, ← decode_encode j, h])

/-! ## Encoding a decoded word (R82) -/

/-- A mask whose bits hi to lo are all zeros clears that field. -/
theorem bits_and_of_zero {m : Word} {hi lo : Nat} (hm : bits m hi lo = 0) (v : Word) : bits (v &&& m) hi lo = 0 := by
  unfold bits at hm ⊢
  rw [BitVec.toNat_and, Nat.shiftRight_and_distrib, Nat.and_mod_two_pow, hm, Nat.and_zero]

/-- Two words are equal when the fields of the three-register format are. -/
theorem eq_of_bits_three {v w : Word} (hop : bits v 31 28 = bits w 31 28) (hign : bits v 27 9 = bits w 27 9)
    (ha : bits v 8 6 = bits w 8 6) (hb : bits v 5 3 = bits w 5 3) (hc : bits v 2 0 = bits w 2 0) : v = w := by
  have hv := v.isLt
  have hw := w.isLt
  simp only [bits, Nat.shiftRight_eq_div_pow] at hop hign ha hb hc
  apply BitVec.eq_of_toNat_eq
  omega

/-- Two words are equal when the fields of the LOADI format are. -/
theorem eq_of_bits_imm {v w : Word} (hop : bits v 31 28 = bits w 31 28) (ha : bits v 27 25 = bits w 27 25)
    (himm : bits v 24 0 = bits w 24 0) : v = w := by
  have hv := v.isLt
  have hw := w.isLt
  simp only [bits, Nat.shiftRight_eq_div_pow] at hop ha himm
  apply BitVec.eq_of_toNat_eq
  omega

/-- A masked word is the canonical word of registers that name its fields, when the mask keeps the opcode and clears
the ignored bits. -/
theorem encodeThree_eq_and {w m : Word} {a b c : RegIdx} (hop : bits m 31 28 = 15) (hign : bits m 27 9 = 0)
    (ha : a.val = bits (w &&& m) 8 6) (hb : b.val = bits (w &&& m) 5 3) (hc : c.val = bits (w &&& m) 2 0) :
    encodeThree (bits w 31 28) a b c = w &&& m := by
  have hlt : bits w 31 28 < 16 := Nat.mod_lt _ (by decide)
  obtain ⟨hop', hign', ha', hb', hc'⟩ := bits_encodeThree hlt a b c
  exact eq_of_bits_three (hop'.trans (bits_and_of_ones hop w).symm) (hign'.trans (bits_and_of_zero hign w).symm)
    (ha'.trans ha) (hb'.trans hb) (hc'.trans hc)

/-- The register of a field the mask keeps. -/
theorem regField_val_eq_and {m : Word} {lo : Nat} (hm : bits m (lo + 2) lo = 7) (w : Word) :
    (regField w (lo + 2) lo).val = bits (w &&& m) (lo + 2) lo := by
  rw [regField_val, bits_and_of_ones (by rw [hm, Nat.add_sub_cancel_left]; rfl)]

/-- The register 0 stands for a field the mask clears. -/
theorem zero_val_eq_and {m : Word} {hi lo : Nat} (hm : bits m hi lo = 0) (w : Word) :
    (0 : RegIdx).val = bits (w &&& m) hi lo :=
  (bits_and_of_zero hm w).symm

/-- The canonical word of a three-register word for each set of used fields (R65): A, B and C; B and C; C; none. -/
theorem encodeThree_regFields (w : Word) :
    encodeThree (bits w 31 28) (regField w 8 6) (regField w 5 3) (regField w 2 0) = w &&& 0xF00001FF#32 ∧
      encodeThree (bits w 31 28) 0 (regField w 5 3) (regField w 2 0) = w &&& 0xF000003F#32 ∧
        encodeThree (bits w 31 28) 0 0 (regField w 2 0) = w &&& 0xF0000007#32 ∧
          encodeThree (bits w 31 28) 0 0 0 = w &&& 0xF0000000#32 := by
  exact ⟨encodeThree_eq_and (by decide) (by decide) (regField_val_eq_and (by decide) w)
      (regField_val_eq_and (by decide) w) (regField_val_eq_and (by decide) w),
    encodeThree_eq_and (by decide) (by decide) (zero_val_eq_and (by decide) w)
      (regField_val_eq_and (by decide) w) (regField_val_eq_and (by decide) w),
    encodeThree_eq_and (by decide) (by decide) (zero_val_eq_and (by decide) w)
      (zero_val_eq_and (by decide) w) (regField_val_eq_and (by decide) w),
    encodeThree_eq_and (by decide) (by decide) (zero_val_eq_and (by decide) w)
      (zero_val_eq_and (by decide) w) (zero_val_eq_and (by decide) w)⟩

/-- A word with opcode 13 is the canonical word of its fields: it has no ignored bit. -/
theorem encodeImm_fields {w : Word} (hop : bits w 31 28 = 13) :
    encodeImm (regField w 27 25) (BitVec.ofNat 25 (bits w 24 0)) = w := by
  obtain ⟨hop', ha, himm⟩ := bits_encodeImm (regField w 27 25) (BitVec.ofNat 25 (bits w 24 0))
  have hofNat : (BitVec.ofNat 25 (bits w 24 0)).toNat = bits w 24 0 :=
    (BitVec.toNat_ofNat ..).trans (Nat.mod_mod ..)
  exact eq_of_bits_imm (hop'.trans hop.symm) (ha.trans (regField_val w 25)) (himm.trans hofNat)

/-- The canonical word of a decoded word is the word with its ignored bits and unused fields cleared: each opcode
below 13 has one of the four sets of used fields, and LOADI uses every bit. -/
theorem encode_of_decode {w : Word} {i : Instr} (h : decode w = some i) : encode i = w &&& i.usedMask := by
  rcases Nat.lt_trichotomy (bits w 31 28) 13 with hop | hop | hop
  · obtain ⟨habc, hbc, hc, hnone⟩ := encodeThree_regFields w
    rw [decode, decodeWord_of_opcode_lt hop] at h
    generalize bits w 31 28 = op at *
    interval_cases op <;> cases h
    all_goals assumption
  · rw [decode, decodeWord_of_opcode_eq_13 hop] at h
    cases h
    exact (encodeImm_fields hop).trans BitVec.and_allOnes.symm
  · rw [decode, decodeWord_of_opcode_gt hop] at h
    cases h

/-! ## What the opcode alone decides (R65) -/

/-- Only words with opcode 14 or 15 decode to no instruction. -/
theorem decode_eq_none_iff {w : Word} : decode w = none ↔ 13 < bits w 31 28 := by
  rcases Nat.lt_trichotomy (bits w 31 28) 13 with hop | hop | hop
  · obtain ⟨i, hi⟩ := exists_instr?_three ⟨_, hop⟩ (regField w 8 6) (regField w 5 3) (regField w 2 0)
    rw [decode, decodeWord_of_opcode_lt hop, hi]
    simp [hop.le]
  · rw [decode, decodeWord_of_opcode_eq_13 hop, hop]
    simp [Decoded.instr?]
  · simp [decode, decodeWord_of_opcode_gt hop, Decoded.instr?, hop]

/-- The mask of the used bits as a function of the opcode (R65, "used fields"). -/
def maskOfOpcode : Nat → Word
  | 7 => 0xF0000000#32
  | 8 | 12 => 0xF000003F#32
  | 9 | 10 | 11 => 0xF0000007#32
  | 13 => 0xFFFFFFFF#32
  | _ => 0xF00001FF#32

theorem usedMask_eq_maskOfOpcode (i : Instr) : i.usedMask = maskOfOpcode i.opcode := by
  cases i <;> rfl

theorem bits_maskOfOpcode (op : Nat) : bits (maskOfOpcode op) 31 28 = 15 := by
  unfold maskOfOpcode
  split <;> decide

/-- Every mask keeps the opcode. -/
theorem bits_usedMask_opcode (i : Instr) : bits i.usedMask 31 28 = 15 :=
  usedMask_eq_maskOfOpcode i ▸ bits_maskOfOpcode _

theorem Instr.opcode_lt (i : Instr) : i.opcode < 16 := by
  cases i <;> simp [Instr.opcode]

/-- The opcode of a canonical word is the instruction's. -/
theorem bits_encode_opcode (i : Instr) : bits (encode i) 31 28 = i.opcode := by
  cases i with
  | loadi a imm => exact (bits_encodeImm a imm).1
  | _ => exact (bits_encodeThree (Instr.opcode_lt _) _ _ _).1

/-- The opcode of a word is that of the instruction it decodes to. -/
theorem bits_opcode_of_decode {w : Word} {i : Instr} (h : decode w = some i) : bits w 31 28 = i.opcode := by
  rw [← bits_encode_opcode, encode_of_decode h, bits_and_of_ones (bits_usedMask_opcode i)]

/-- A word that agrees with a decoded one on the used bits decodes to the same instruction: it has the same opcode,
so it decodes to an instruction with the same mask, and the two have one canonical word. -/
theorem decode_of_and_usedMask {w w' : Word} {i : Instr} (h : decode w = some i)
    (heq : w' &&& i.usedMask = w &&& i.usedMask) : decode w' = some i := by
  have hop : bits w' 31 28 = bits w 31 28 := by
    rw [← bits_and_of_ones (bits_usedMask_opcode i) w', heq, bits_and_of_ones (bits_usedMask_opcode i)]
  obtain ⟨j, hj⟩ : ∃ j, decode w' = some j := by
    rw [← Option.ne_none_iff_exists', Ne, decode_eq_none_iff, hop, ← decode_eq_none_iff, h]
    exact Option.some_ne_none i
  have hmask : j.usedMask = i.usedMask := by
    rw [usedMask_eq_maskOfOpcode, usedMask_eq_maskOfOpcode, ← bits_opcode_of_decode hj, hop, bits_opcode_of_decode h]
  have hji : encode j = encode i := by rw [encode_of_decode hj, encode_of_decode h, hmask, heq]
  rw [hj, encode_injective hji]

end Sys2Proof

namespace Sys2Proof.Claims

open Sys2Proof.Machine

/-- Settles O1: the decoder reads every field the encoder writes. -/
theorem decodeOfEncodeIsTheInstruction : Obligations.DecodeOfEncodeIsTheInstruction :=
  decode_encode

/-- Settles O2: the word and the canonical word agree field by field under the mask. -/
theorem encodeOfDecodeClearsIgnoredBits : Obligations.EncodeOfDecodeClearsIgnoredBits :=
  fun _ _ => encode_of_decode

/-- Settles O4: the opcode is the word's leading digit in base 16. -/
theorem onlyOpcodes14And15AreRefused : Obligations.OnlyOpcodes14And15AreRefused := by
  intro w
  have hw := w.isLt
  rw [decode_eq_none_iff, bits, Nat.shiftRight_eq_div_pow]
  omega

/-- Settles O6: the canonical word fixes the instruction, and the used bits fix the canonical word. -/
theorem unusedFieldsChangeNothing : Obligations.UnusedFieldsChangeNothing :=
  fun _ _ _ => decode_of_and_usedMask

/-- Settles O7: each word is decoded field by field. -/
theorem vectorWordsDecode : Obligations.VectorWordsDecode := by
  refine ⟨?_, ?_, ?_, ?_, ?_, ?_, ?_, ?_, ?_, ?_, ?_, ?_⟩ <;> decide

end Sys2Proof.Claims
end

section
/-! PROOFS about the invariant of the segment store (10_state.md R22): each of the operations of 20_memory.md keeps
it. -/

namespace Sys2Proof.Machine

/-! ## The tombstones of a store with one slot replaced -/

/-- A slot that becomes live is no tombstone; every other slot stays what it was. -/
theorem Store.tombstone_setSlot_some {st : Store} {id : Word} {g : Segment} {k : Nat} :
    (st.setSlot id (some g)).table[k]? = some none ↔ k ≠ id.toNat ∧ st.table[k]? = some none := by
  rw [Store.setSlot_table, List.getElem?_set]
  by_cases hk : id.toNat = k
  · simp [hk]
  · simp [hk, Ne.symm hk]

/-- A slot that is emptied is a tombstone; every other slot stays what it was. -/
theorem Store.tombstone_setSlot_none {st : Store} {id : Word} (hin : id.toNat < st.table.length) {k : Nat} :
    (st.setSlot id none).table[k]? = some none ↔ k = id.toNat ∨ st.table[k]? = some none := by
  rw [Store.setSlot_table, List.getElem?_set]
  by_cases hk : id.toNat = k
  · subst hk; simp [hin]
  · simp [hk, Ne.symm hk]

/-- A slot of a table of at most 2^32 slots is named by its own number. -/
theorem ofNat_slot_toNat {st : Store} {k : Nat} {o : Option Segment} (hlen : st.table.length ≤ Config.maxSlots)
    (hk : st.table[k]? = some o) : (BitVec.ofNat 32 k).toNat = k :=
  Nat.mod_eq_of_lt ((List.getElem?_eq_some_iff.1 hk).1.trans_le hlen)

/-- An identifier in the pool is not live. -/
theorem Store.PoolIsTombstones.live_eq_false {st : Store} (hpool : st.PoolIsTombstones) {id : Word}
    (hid : id ∈ st.pool) : st.live id = false := by
  simp [Store.live, Store.segment?, hpool id hid]

/-- Identifier 0 stays live when a segment is put into any slot. -/
theorem Store.ZeroLive.setSlot_some {st : Store} (hzero : st.ZeroLive) (id : Word) (g : Segment) :
    (st.setSlot id (some g)).ZeroLive := by
  obtain ⟨g0, hg0⟩ := Store.live_iff.1 hzero
  by_cases hid : (0 : Word) = id
  · subst hid
    exact Store.live_iff.2 ⟨g, Store.segment?_setSlot_self (Store.lt_of_segment? hg0) _⟩
  · exact Store.live_iff.2 ⟨g0, (Store.segment?_setSlot_of_ne st _ hid).trans hg0⟩

/-! ## The operations keep the invariant -/

/-- A live slot given another segment in canonical form: no tombstone appears or goes. -/
theorem Store.Inv.setSlot_some {st : Store} (h : st.Inv) {id : Word} {g : Segment} (hlive : st.live id = true)
    (hg : g.wf = true) : (st.setSlot id (some g)).Inv := by
  obtain ⟨hzero, hpool, htomb, hnodup, hlen, hwf⟩ := h
  have hsame (k : Nat) : (st.setSlot id (some g)).table[k]? = some none ↔ st.table[k]? = some none := by
    obtain ⟨g0, hg0⟩ := Store.live_iff.1 hlive
    refine Store.tombstone_setSlot_some.trans ⟨And.right, fun hk => ⟨fun hid => ?_, hk⟩⟩
    rw [hid, Store.segment?_eq_some.1 hg0] at hk
    cases hk
  refine ⟨hzero.setSlot_some id g, fun i hi => (hsame _).2 (hpool i hi), fun k hk hnone => ?_, hnodup, ?_,
    Memory.wf_setSlot hwf id (by rintro _ ⟨⟩; exact hg)⟩
  · rw [Store.setSlot_table, List.length_set] at hk
    exact htomb k hk ((hsame k).1 hnone)
  · rwa [Store.setSlot_table, List.length_set]

theorem memWrite_inv {st st' : Store} {id off v : Word} (h : st.Inv) (hw : memWrite st id off v = .ok st') :
    st'.Inv := by
  have ⟨_, _, _, _, _, hwf⟩ := h
  obtain ⟨g, hg, hlt, rfl⟩ := memWrite_eq_ok.1 hw
  exact h.setSlot_some (Store.live_iff.2 ⟨g, hg⟩) (Segment.setWord_wf (Memory.wf_segment hwf hg) v hlt)

theorem replaceProgram_inv {p : AllocPolicy} {st st' : Store} {id : Word} (h : st.Inv) (h0 : id ≠ 0#32)
    (hr : replaceProgram p st id = .ok st') : st'.Inv := by
  have ⟨hzero, _, _, _, _, hwf⟩ := h
  obtain ⟨g, hg, -, rfl⟩ := (replaceProgram_eq_ok h0).1 hr
  exact h.setSlot_some hzero (Memory.wf_segment hwf hg)

/-- A freed identifier was live, so it was not in the pool yet. -/
theorem deallocate_inv {st st' : Store} {id : Word} (h : st.Inv) (hd : deallocate st id = .ok st') : st'.Inv := by
  obtain ⟨hzero, hpool, htomb, hnodup, hlen, hwf⟩ := h
  have hslot := deallocate_slot hd
  obtain ⟨h0, hlive, rfl⟩ := deallocate_eq_ok.1 hd
  obtain ⟨g, hg⟩ := Store.live_iff.1 hlive
  have htombs {k : Nat} := Store.tombstone_setSlot_none (Store.lt_of_segment? hg) (k := k)
  refine ⟨?zeroLive, fun i hi => ?poolIsTombstones, fun k hk hnone => ?tombstonesInPool, ?nodup, ?length,
    deallocate_wf hwf hd⟩
  case zeroLive =>
    obtain ⟨g0, hg0⟩ := Store.live_iff.1 hzero
    exact Store.live_iff.2 ⟨g0, (Store.segment?_setSlot_of_ne st none h0.symm).trans hg0⟩
  case poolIsTombstones =>
    rcases List.mem_cons.1 hi with rfl | hi
    · exact hslot
    · exact htombs.2 (.inr (hpool i hi))
  case tombstonesInPool =>
    rcases htombs.1 hnone with rfl | hold
    · simp
    · exact List.mem_cons_of_mem _ (htomb k (List.getElem?_eq_some_iff.1 hold).1 hold)
  case nodup =>
    have hnot : id ∉ st.pool := fun hid => by simp [hpool.live_eq_false hid] at hlive
    exact List.nodup_cons.2 ⟨hnot, hnodup⟩
  case length => simpa using hlen

/-- An identifier taken from the pool leaves it; a slot at the end of the table is no tombstone. -/
theorem allocate_inv {p : AllocPolicy} {st st' : Store} {n id : Word} (h : st.Inv)
    (ha : allocate p st n = .ok (id, st')) : st'.Inv := by
  obtain ⟨hzero, hpool, htomb, hnodup, hlen, hwf⟩ := h
  have hwf' := allocate_wf hwf ha
  obtain ⟨-, ⟨rest, hrest, rfl⟩ | ⟨hnil, hlt, rfl, rfl⟩⟩ := allocate_eq_ok.1 ha
  · rw [hrest] at hnodup
    obtain ⟨hnot, hnodup'⟩ := List.nodup_cons.1 hnodup
    refine ⟨hzero.setSlot_some id _, fun i hi => ?_, fun k hk hnone => ?_, hnodup', by simpa using hlen, hwf'⟩
    · have hne : i.toNat ≠ id.toNat := fun e => hnot (BitVec.eq_of_toNat_eq e ▸ hi)
      exact Store.tombstone_setSlot_some.2 ⟨hne, hpool i (hrest ▸ List.mem_cons_of_mem _ hi)⟩
    · obtain ⟨hne, hold⟩ := Store.tombstone_setSlot_some.1 hnone
      have hmem := htomb k (List.getElem?_eq_some_iff.1 hold).1 hold
      rw [hrest] at hmem
      exact (List.mem_cons.1 hmem).resolve_left fun e => hne (by rw [← e, ofNat_slot_toNat hlen hold])
  · refine ⟨?_, by simp [Store.PoolIsTombstones], fun k hk hnone => ?_, List.nodup_nil, ?_, hwf'⟩
    · obtain ⟨g0, hg0⟩ := Store.live_iff.1 hzero
      refine Store.live_iff.2 ⟨g0, Store.segment?_eq_some.2 ?_⟩
      rw [List.getElem?_append_left (Store.lt_of_segment? hg0), Store.segment?_eq_some.1 hg0]
    · have hin : k < st.table.length := by
        by_contra hge
        obtain rfl : k = st.table.length := by simp at hk; omega
        simp at hnone
      rw [List.getElem?_append_left hin] at hnone
      exact hnil ▸ htomb k hin hnone
    · simpa using hlt

end Sys2Proof.Machine
end

section
/-! PROOFS about one step (40_fetch_decode_dispatch.md R91): everything an instruction that completes can have done,
said once, and that the step keeps the invariant. -/

namespace Sys2Proof.Machine

/-! ## The input answer (50_interfaces.md R172) -/

theorem inputAnswer_eq_byte {s : State} {b : Byte} :
    s.inputAnswer = some (.byte b) ↔ s.io.eofSeen = false ∧ s.env.input[s.io.inPos]? = some b := by
  unfold State.inputAnswer
  cases s.io.eofSeen
  · cases s.env.input[s.io.inPos]? <;> simp
  · simp

theorem inputAnswer_eq_eof {s : State} :
    s.inputAnswer = some .eof ↔
      s.io.eofSeen = true ∨ s.env.input.length ≤ s.io.inPos ∧ s.env.inputEnded = true := by
  unfold State.inputAnswer
  cases s.io.eofSeen
  · rw [← List.getElem?_eq_none_iff]
    cases s.env.input[s.io.inPos]? <;> simp
  · simp

theorem inputAnswer_eq_none {s : State} :
    s.inputAnswer = none ↔
      s.io.eofSeen = false ∧ s.env.input.length ≤ s.io.inPos ∧ s.env.inputEnded = false := by
  unfold State.inputAnswer
  cases s.io.eofSeen
  · rw [← List.getElem?_eq_none_iff]
    cases s.env.input[s.io.inPos]? <;> simp
  · simp

/-! ## An equation for each case of an instruction -/

theorem exec_div_of_ne {a b c : RegIdx} {s : State} (h : s.reg c ≠ 0#32) :
    exec (.div a b c) s = binary divWord a b c s :=
  if_neg h

theorem exec_div_of_eq {a b c : RegIdx} {s : State} (h : s.reg c = 0#32) :
    exec (.div a b c) s = raise (.divZero (s.reg b)) s :=
  if_pos h

/-- OUT of a value that is a byte sends it. -/
theorem exec_out_of_le {c : RegIdx} {s : State} (h : (s.reg c).toNat ≤ 255) :
    exec (.out c) s = sendByte (lowByte (s.reg c)) s :=
  if_neg (Nat.not_lt.2 h)

/-- OUT of a larger value raises OUTPUT_RANGE under the policy `fault`. -/
theorem exec_out_of_fault {c : RegIdx} {s : State} (h : 255 < (s.reg c).toNat) (hp : s.params.outGt255 = .fault) :
    exec (.out c) s = raise (.outputRange (s.reg c)) s := by
  simp only [exec, execOut, if_pos h, hp]

/-- Under the policy `mask` OUT sends the low byte, whatever the value. -/
theorem exec_out_of_mask {c : RegIdx} {s : State} (hp : s.params.outGt255 = .mask) :
    exec (.out c) s = sendByte (lowByte (s.reg c)) s := by
  simp only [exec, execOut, hp, ite_self]

/-- IN with a byte available. -/
theorem exec_inp_of_byte {c : RegIdx} {s : State} {b : Byte} (h : s.inputAnswer = some (.byte b)) :
    exec (.inp c) s = completed (s.consume.setReg c (byteWord b)) := by
  simp only [exec, execIn, h]

/-- IN at the end of the input. -/
theorem exec_inp_of_eof {c : RegIdx} {s : State} (h : s.inputAnswer = some .eof) :
    exec (.inp c) s = completed (s.noteEof.setReg c allOnes) := by
  simp only [exec, execIn, h]

/-- IN with no answer. -/
theorem exec_inp_of_none {c : RegIdx} {s : State} (h : s.inputAnswer = none) :
    exec (.inp c) s = .fault .awaitingInput := by
  simp only [exec, execIn, h]

/-- LOADP of identifier 0 is a pure jump. -/
theorem exec_loadp_of_eq {b c : RegIdx} {s : State} (h : s.reg b = 0#32) :
    exec (.loadp b c) s = .next (s.setPc (s.reg c)) :=
  if_pos h

/-- LOADP of any other identifier loads the segment. -/
theorem exec_loadp_of_ne {b c : RegIdx} {s : State} (h : s.reg b ≠ 0#32) :
    exec (.loadp b c) s =
      orRaise s (replaceProgram s.params.allocOk s.store (s.reg b)) fun st =>
        .next ((s.setStore st).setPc (s.reg c)) :=
  if_neg h

/-! ## What an instruction can have done -/

/-- The next states of an instruction: one constructor for each way it can end. -/
inductive ExecTo : Instr → State → State → Prop where
  /-- A fatal error (60_exceptions.md R200), which HALT and IN never raise. -/
  | raised {i : Instr} {s : State} (cause : Cause) (hhalt : i ≠ .halt) (hinp : ∀ c, i ≠ .inp c) :
    ExecTo i s (s.setRun (.faulted { cause := cause, pc := s.pc }))
  /-- CMOV with its test not met (41_move.md R100). -/
  | skipped {a b c : RegIdx} {s : State} : ExecTo (.cmov a b c) s s.advance
  /-- A value for the register of the instruction's row and nothing else (10_state.md R12). -/
  | wrote {i : Instr} {s : State} {a : RegIdx} (v : Word) (ha : instrWrites i = some a) :
    ExecTo i s (s.setReg a v).advance
  | stored {a b c : RegIdx} {s : State} {st : Store} (hw : memWrite s.store (s.reg a) (s.reg b) (s.reg c) = .ok st) :
    ExecTo (.sstore a b c) s (s.setStore st).advance
  | halted {s : State} : ExecTo .halt s (s.setRun .halted)
  | mapped {b c : RegIdx} {s : State} {id : Word} {st : Store}
    (ha : allocate s.params.allocOk s.store (s.reg c) = .ok (id, st)) :
    ExecTo (.map b c) s ((s.setStore st).setReg b id).advance
  | unmapped {c : RegIdx} {s : State} {st : Store} (hd : deallocate s.store (s.reg c) = .ok st) :
    ExecTo (.unmap c) s (s.setStore st).advance
  | emitted {c : RegIdx} {s : State} (byte : Byte) : ExecTo (.out c) s (s.emit byte).advance
  | consumed {c : RegIdx} {s : State} {byte : Byte} (hin : s.inputAnswer = some (.byte byte)) :
    ExecTo (.inp c) s (s.consume.setReg c (byteWord byte)).advance
  | ended {c : RegIdx} {s : State} (hin : s.inputAnswer = some .eof) :
    ExecTo (.inp c) s (s.noteEof.setReg c allOnes).advance
  | jumped {b c : RegIdx} {s : State} : ExecTo (.loadp b c) s (s.setPc (s.reg c))
  | loaded {b c : RegIdx} {s : State} {st : Store} (h0 : s.reg b ≠ 0#32)
    (hr : replaceProgram s.params.allocOk s.store (s.reg b) = .ok st) :
    ExecTo (.loadp b c) s ((s.setStore st).setPc (s.reg c))

/-- ADD, MUL and NAND, and DIV by a divisor that is not 0, write the register of their row. -/
theorem ExecTo.of_binary {i : Instr} {f : Word → Word → Word} {a b c : RegIdx} {s t : State}
    (h : binary f a b c s = .next t) (ha : instrWrites i = some a) : ExecTo i s t :=
  binary_eq_next.1 h ▸ .wrote _ ha

/-- OUT that sends a byte appends it to the output. -/
theorem ExecTo.of_sendByte {c : RegIdx} {byte : Byte} {s t : State} (h : sendByte byte s = .next t) :
    ExecTo (.out c) s t :=
  (sendByte_eq_next.1 h).2 ▸ .emitted byte

/-- An instruction that goes through `orRaise` raises the operation's error, or goes on with its answer. -/
theorem ExecTo.of_orRaise {i : Instr} {α : Type} {r : Except Cause α} {k : α → Result} {s t : State}
    (h : orRaise s r k = .next t) (hhalt : i ≠ .halt) (hinp : ∀ c, i ≠ .inp c)
    (hok : ∀ a, r = .ok a → k a = .next t → ExecTo i s t) : ExecTo i s t := by
  obtain ⟨cause, -, rfl⟩ | ⟨a, hr, hk⟩ := orRaise_eq_next h
  · exact .raised cause hhalt hinp
  · exact hok a hr hk

/-- There is no other next state. -/
theorem ExecTo.of_exec {i : Instr} {s t : State} (h : exec i s = .next t) : ExecTo i s t := by
  cases i with
  | cmov a b c =>
    by_cases hc : s.reg c = 0#32
    · rw [exec_cmov_of_eq hc] at h
      exact completed_eq_next.1 h ▸ .skipped
    · rw [exec_cmov_of_ne hc] at h
      exact completed_eq_next.1 h ▸ .wrote _ rfl
  | sload a b c =>
    exact .of_orRaise h nofun nofun fun v _ hk => completed_eq_next.1 hk ▸ .wrote v rfl
  | sstore a b c =>
    exact .of_orRaise h nofun nofun fun st hw hk => completed_eq_next.1 hk ▸ .stored hw
  | add a b c => exact .of_binary h rfl
  | mul a b c => exact .of_binary h rfl
  | nand a b c => exact .of_binary h rfl
  | div a b c =>
    by_cases hc : s.reg c = 0#32
    · rw [exec_div_of_eq hc] at h
      exact raise_eq_next.1 h ▸ .raised _ nofun nofun
    · rw [exec_div_of_ne hc] at h
      exact .of_binary h rfl
  | halt => exact Host.Outcome.next.inj h ▸ .halted
  | map b c =>
    exact .of_orRaise h nofun nofun fun r ha hk => completed_eq_next.1 hk ▸ .mapped ha
  | unmap c =>
    exact .of_orRaise h nofun nofun fun st hd hk => completed_eq_next.1 hk ▸ .unmapped hd
  | out c =>
    by_cases hle : (s.reg c).toNat ≤ 255
    · rw [exec_out_of_le hle] at h
      exact .of_sendByte h
    · cases hp : s.params.outGt255 with
      | fault =>
        rw [exec_out_of_fault (Nat.lt_of_not_le hle) hp] at h
        exact raise_eq_next.1 h ▸ .raised _ nofun nofun
      | mask =>
        rw [exec_out_of_mask hp] at h
        exact .of_sendByte h
  | inp c =>
    match hin : s.inputAnswer with
    | some (.byte b) =>
      rw [exec_inp_of_byte hin] at h
      exact completed_eq_next.1 h ▸ .consumed hin
    | some .eof =>
      rw [exec_inp_of_eof hin] at h
      exact completed_eq_next.1 h ▸ .ended hin
    | none =>
      rw [exec_inp_of_none hin] at h
      cases h
  | loadp b c =>
    by_cases h0 : s.reg b = 0#32
    · rw [exec_loadp_of_eq h0] at h
      exact Host.Outcome.next.inj h ▸ .jumped
    · rw [exec_loadp_of_ne h0] at h
      exact .of_orRaise h nofun nofun fun st hr hk => Host.Outcome.next.inj hk ▸ .loaded h0 hr
  | loadi a imm => exact completed_eq_next.1 h ▸ .wrote _ rfl

/-! ## What a step can have done -/

open Claims

/-- The instruction of the word fetched. -/
theorem nextInstr_of_fetch {s : State} {w : Word} (hf : fetch s = .ok w) : nextInstr s = decode w := by
  rw [nextInstr, fetch_eq_ok_iff_memRead.1 hf]

/-- A running machine whose next word is an instruction executes it. -/
theorem step_eq_exec_of_nextInstr {s : State} {i : Instr} (hrun : s.run = .running) (hi : nextInstr s = some i) :
    step s = exec i s := by
  unfold nextInstr at hi
  split at hi
  next w hread => exact step_eq_exec_of_memRead hrun hread hi
  next => cases hi

/-- A machine that is not running stays as it is. -/
theorem step_of_not_running {s : State} (h : s.run ≠ .running) : step s = .next s := by
  unfold step
  split
  next hrun => exact absurd hrun h
  next => rfl
  next => rfl

/-- A step of a running machine with no next instruction raises a fatal error; any other runs the instruction. -/
theorem step_running_eq_next {s t : State} (hrun : s.run = .running) (h : step s = .next t) :
    (nextInstr s = none ∧ ∃ cause, t = s.setRun (.faulted { cause := cause, pc := s.pc })) ∨
      ∃ i, nextInstr s = some i ∧ ExecTo i s t := by
  obtain ⟨cause, hf, hs⟩ | ⟨w, hf, hd, hs⟩ | ⟨w, i, hf, hd, hs⟩ := step_running_cases hrun
  · have hnone : nextInstr s = none := by
      unfold nextInstr
      split
      next w hread => rw [fetch_eq_ok_iff_memRead.2 hread] at hf; cases hf
      next => rfl
    exact .inl ⟨hnone, cause, raise_eq_next.1 (hs ▸ h)⟩
  · exact .inl ⟨(nextInstr_of_fetch hf).trans hd, _, raise_eq_next.1 (hs ▸ h)⟩
  · exact .inr ⟨i, (nextInstr_of_fetch hf).trans hd, .of_exec (hs ▸ h)⟩

/-! ## The invariant of the machine -/

/-- A machine that is not faulted has no recorded pc to agree with. -/
theorem faultPcAgrees_of_running {s : State} (h : s.run = .running) : s.faultPcAgrees = true := by
  rw [State.faultPcAgrees, h]

/-- Error entry records the machine's pc. -/
theorem faultPcAgrees_raised (s : State) (cause : Cause) :
    (s.setRun (.faulted { cause := cause, pc := s.pc })).faultPcAgrees = true := by
  simp [State.faultPcAgrees]

/-- A byte answered is one that was delivered, and the end of the input has not been reported. -/
theorem StreamsInv.consume {s : State} {b : Byte} (hin : s.inputAnswer = some (.byte b)) : s.consume.StreamsInv := by
  obtain ⟨heof, hb⟩ := inputAnswer_eq_byte.1 hin
  have hlt := (List.getElem?_eq_some_iff.1 hb).1
  exact ⟨hlt, fun h => by simp [heof] at h⟩

/-- The end of the input is answered only after the last byte. -/
theorem StreamsInv.noteEof {s : State} (h : s.StreamsInv) (hin : s.inputAnswer = some .eof) :
    s.noteEof.StreamsInv := by
  obtain ⟨hle, hseen⟩ := h
  refine ⟨hle, fun _ => ?_⟩
  rcases inputAnswer_eq_eof.1 hin with heof | ⟨hge, hended⟩
  · exact hseen heof
  · exact ⟨hended, Nat.le_antisymm hle hge⟩

/-- An instruction keeps the store's and the streams' invariants. -/
theorem ExecTo.keeps_store_streams {i : Instr} {s t : State} (hexec : ExecTo i s t) (hstore : s.store.Inv)
    (hio : s.StreamsInv) : t.store.Inv ∧ t.StreamsInv := by
  cases hexec with
  | raised | skipped | wrote | halted | emitted | jumped => exact ⟨hstore, hio⟩
  | stored hw => exact ⟨memWrite_inv hstore hw, hio⟩
  | mapped ha => exact ⟨allocate_inv hstore ha, hio⟩
  | unmapped hd => exact ⟨deallocate_inv hstore hd, hio⟩
  | loaded h0 hr => exact ⟨replaceProgram_inv hstore h0 hr, hio⟩
  | consumed hin => exact ⟨hstore, StreamsInv.consume hin⟩
  | ended hin => exact ⟨hstore, StreamsInv.noteEof hio hin⟩

/-- A running machine goes on, halts, or records its own pc. -/
theorem ExecTo.run_cases {i : Instr} {s t : State} (hexec : ExecTo i s t) :
    t.run = s.run ∨ (i = .halt ∧ t = s.setRun .halted) ∨
      (i ≠ .halt ∧ ∃ cause, t = s.setRun (.faulted { cause := cause, pc := s.pc })) := by
  cases hexec with
  | raised cause hhalt => exact .inr (.inr ⟨hhalt, cause, rfl⟩)
  | halted => exact .inr (.inl ⟨rfl, rfl⟩)
  | _ => exact .inl rfl

theorem ExecTo.faultPcAgrees {i : Instr} {s t : State} (hexec : ExecTo i s t) (hrun : s.run = .running) :
    t.faultPcAgrees = true := by
  obtain hgo | ⟨-, rfl⟩ | ⟨-, cause, rfl⟩ := hexec.run_cases
  · exact faultPcAgrees_of_running (hgo.trans hrun)
  · rfl
  · exact faultPcAgrees_raised s cause

/-- Every step keeps the invariant. -/
theorem step_inv {s t : State} (hinv : s.Inv) (h : step s = .next t) : t.Inv := by
  obtain ⟨hstore, hio, hpc⟩ := hinv
  by_cases hrun : s.run = .running
  · obtain ⟨-, cause, rfl⟩ | ⟨i, -, hexec⟩ := step_running_eq_next hrun h
    · exact ⟨hstore, hio, faultPcAgrees_raised s cause⟩
    · obtain ⟨hstore', hio'⟩ := hexec.keeps_store_streams hstore hio
      exact ⟨hstore', hio', hexec.faultPcAgrees hrun⟩
  · rw [step_of_not_running hrun] at h
    cases h
    exact ⟨hstore, hio, hpc⟩

end Sys2Proof.Machine

namespace Sys2Proof.Claims

open Sys2Proof.Machine

/-- Settles O48: by the ways a step can end, each with what it does to the store, the streams and the run state. -/
theorem stepKeepsTheInvariant : Obligations.StepKeepsTheInvariant :=
  fun _ _ => step_inv

end Sys2Proof.Claims
end

section
/-! PROOFS about the instructions one by one: the encoding of each row, and the exact next state in each case
(42_segment_access.md to 46_io.md). -/

namespace Sys2Proof.Machine

open Claims

/-- Error entry in the words of the statements. -/
theorem raise_eq_afterFault (cause : Cause) (s : State) : raise cause s = .next (afterFault cause s) := rfl

/-- An operation of the store that fails ends the instruction in its error. -/
theorem orRaise_eq_afterFault {α : Type} {s : State} {r : Except Cause α} {k : α → Result} {cause : Cause}
    (h : r = .error cause) : orRaise s r k = .next (afterFault cause s) := by
  rw [h, orRaise_error, raise_eq_afterFault]

/-- An operation of the store that completes hands its answer on. -/
theorem orRaise_of_ok {α : Type} {s : State} {r : Except Cause α} {k : α → Result} {a : α} (h : r = .ok a) :
    orRaise s r k = k a := by
  rw [h, orRaise_ok]

/-- The floor of the quotient fits a word. -/
theorem divWord_toNat (n d : Word) : (divWord n d).toNat = n.toNat / d.toNat :=
  Nat.mod_eq_of_lt ((Nat.div_le_self ..).trans_lt n.isLt)

/-- The low byte of a word is the word mod 256. -/
theorem lowByte_toNat (v : Word) : (lowByte v).toNat = v.toNat % 256 :=
  BitVec.toNat_setWidth ..

/-- A load of an identifier that is not live fails, whatever the offset. -/
theorem memRead_of_not_live {st : Store} {id : Word} (h : st.live id = false) (off : Word) :
    memRead st id off = .error (.invalidId id) :=
  memRead_eq_error.2 (.inl ⟨Store.live_eq_false_iff.1 h, rfl⟩)

/-- A load at or beyond the word count fails. -/
theorem memRead_of_len_le {st : Store} {id off : Word} {g : Segment} (hg : st.segment? id = some g)
    (hle : g.len.toNat ≤ off.toNat) : memRead st id off = .error (.boundsOffset id off) :=
  memRead_eq_error.2 (.inr ⟨g, hg, hle, rfl⟩)

/-- A byte sent to an environment that accepts it. -/
theorem sendByte_of_ready {b : Byte} {s : State} (h : s.env.outputReady = true) :
    sendByte b s = completed (s.emit b) :=
  if_pos h

/-- A byte held back. -/
theorem sendByte_of_not_ready {b : Byte} {s : State} (h : s.env.outputReady = false) :
    sendByte b s = .fault .awaitingOutput := by
  simp [sendByte, h]

end Sys2Proof.Machine

namespace Sys2Proof.Claims

open Sys2Proof.Machine

/-- Settles O24: the row of opcode 5, and the two cases of the divisor. -/
theorem divFloorsOrFaults : Obligations.DivFloorsOrFaults :=
  ⟨isRow_of_opcode 5 (by decide) fun _ _ _ => rfl, fun a b c s =>
    ⟨fun hne => ⟨_, divWord_toNat s.x[b] s.x[c], (exec_div_of_ne hne).trans (binary_eq divWord a b c s)⟩,
      fun h0 => exec_div_of_eq h0⟩⟩

/-- Settles O25: the row of opcode 1, and the three answers of the load. -/
theorem sloadReadsOneWord : Obligations.SloadReadsOneWord := by
  refine ⟨isRow_of_opcode 1 (by decide) fun _ _ _ => rfl, fun a b c s => ⟨fun g hg hlt => ?reads, fun hdead => ?dead,
    fun g hg hle => ?beyond⟩⟩
  case reads =>
    have hread := memRead_eq_ok.2 ⟨g, hg, hlt, rfl⟩
    exact (orRaise_of_ok hread).trans (completed_setReg s a _)
  case dead => exact orRaise_eq_afterFault (memRead_of_not_live hdead _)
  case beyond => exact orRaise_eq_afterFault (memRead_of_len_le hg hle)

/-- Settles O26: the row of opcode 2, and the three answers of the store, which fails as the load does. -/
theorem sstoreWritesOneWord : Obligations.SstoreWritesOneWord := by
  refine ⟨isRow_of_opcode 2 (by decide) fun _ _ _ => rfl, fun a b c s => ⟨fun g hg hlt => ?writes, fun hdead => ?dead,
    fun g hg hle => ?beyond⟩⟩
  case writes =>
    have hwrite := (memWrite_eq_ok (v := s.reg c)).2 ⟨g, hg, hlt, rfl⟩
    exact orRaise_of_ok hwrite
  case dead => exact orRaise_eq_afterFault (memWrite_eq_error.2 (memRead_of_not_live hdead _))
  case beyond => exact orRaise_eq_afterFault (memWrite_eq_error.2 (memRead_of_len_le hg hle))

/-- Settles O27: the row of opcode 7. -/
theorem haltOnlyHalts : Obligations.HaltOnlyHalts :=
  ⟨isRow_of_opcode 7 (by decide) fun _ _ _ => rfl, fun _ => rfl⟩

/-- Settles O28: the row of opcode 12, and the two cases of the identifier. -/
theorem loadpJumpsOrLoads : Obligations.LoadpJumpsOrLoads := by
  refine ⟨isRow_of_opcode 12 (by decide) fun _ _ _ => rfl, fun b c s => ⟨fun h0 => exec_loadp_of_eq h0,
    fun g h0 hg hadm => ?_⟩⟩
  have hload := (replaceProgram_eq_ok h0).2 ⟨g, hg, hadm, rfl⟩
  exact (exec_loadp_of_ne h0).trans (orRaise_of_ok hload)

/-- Settles O29: the row of opcode 8, and the two places an identifier comes from. -/
theorem mapCreatesAZeroedSegment : Obligations.MapCreatesAZeroedSegment := by
  refine ⟨isRow_of_opcode 8 (by decide) fun _ _ _ => rfl, fun b c s hadm => ⟨fun id rest hpool => ?reused,
    fun hpool hlt => ?grown⟩⟩
  case reused =>
    have hok := allocate_eq_ok.2 ⟨hadm, .inl ⟨rest, hpool, rfl⟩⟩
    exact orRaise_of_ok hok
  case grown =>
    have hok := allocate_eq_ok.2 ⟨hadm, .inr ⟨hpool, hlt, rfl, rfl⟩⟩
    exact orRaise_of_ok hok

/-- Settles O30: the row of opcode 9, and a deallocation that completes. -/
theorem unmapDestroysTheSegment : Obligations.UnmapDestroysTheSegment := by
  refine ⟨isRow_of_opcode 9 (by decide) fun _ _ _ => rfl, fun c s h0 hlive => ?_⟩
  have hok := deallocate_eq_ok.2 ⟨h0, hlive, rfl⟩
  exact orRaise_of_ok hok

/-- Settles O31: the errors of the three operations of the store. -/
theorem storeErrorsFault : Obligations.StoreErrorsFault := by
  refine fun b c s => ⟨fun hbad => ?unmap, fun h0 hdead => ?loadpDead, fun g h0 hg hno => ?loadpFull,
    fun hfull => ?map⟩
  case unmap => exact orRaise_eq_afterFault (deallocate_eq_error.2 ⟨rfl, hbad⟩)
  case loadpDead =>
    exact (exec_loadp_of_ne h0).trans
      (orRaise_eq_afterFault ((replaceProgram_eq_error h0).2 (.inl ⟨Store.live_eq_false_iff.1 hdead, rfl⟩)))
  case loadpFull =>
    exact (exec_loadp_of_ne h0).trans
      (orRaise_eq_afterFault ((replaceProgram_eq_error h0).2 (.inr ⟨g, hg, hno, rfl⟩)))
  case map => exact orRaise_eq_afterFault (allocate_eq_error.2 ⟨rfl, hfull⟩)

/-- Settles O32: the row of opcode 10, and a byte sent whose number is the value's. -/
theorem outEmitsOneByte : Obligations.OutEmitsOneByte := by
  refine ⟨isRow_of_opcode 10 (by decide) fun _ _ _ => rfl, fun c s hle hready => ⟨lowByte s.x[c], ?value, ?result⟩⟩
  case value => rw [lowByte_toNat, Nat.mod_eq_of_lt (Nat.lt_succ_of_le hle)]
  case result => exact (exec_out_of_le hle).trans (sendByte_of_ready hready)

/-- Settles O33: the two policies of OUT_GT255. -/
theorem outAbove255FollowsThePolicy : Obligations.OutAbove255FollowsThePolicy :=
  fun _ s hgt => ⟨fun hfault => exec_out_of_fault hgt hfault, fun hmask hready =>
    ⟨lowByte s.x[_], lowByte_toNat _, (exec_out_of_mask hmask).trans (sendByte_of_ready hready)⟩⟩

/-- Settles O34: the row of opcode 11, and the two answers of the environment. -/
theorem inReadsOneByteOrEnd : Obligations.InReadsOneByteOrEnd :=
  ⟨isRow_of_opcode 11 (by decide) fun _ _ _ => rfl, fun _ _ =>
    ⟨fun b heof hb => ⟨byteWord b, byteWord_toNat b, exec_inp_of_byte (inputAnswer_eq_byte.2 ⟨heof, hb⟩)⟩,
      fun hend => exec_inp_of_eof (inputAnswer_eq_eof.2 hend)⟩⟩

/-- Settles O35: no answer for IN, and a byte held back for OUT. -/
theorem streamsWaitForTheEnvironment : Obligations.StreamsWaitForTheEnvironment := by
  refine fun c s => ⟨fun heof hle hopen => exec_inp_of_none (inputAnswer_eq_none.2 ⟨heof, hle, hopen⟩),
    fun hheld hbyte => ?_⟩
  have hsend : exec (.out c) s = sendByte (lowByte (s.reg c)) s := hbyte.elim exec_out_of_le exec_out_of_mask
  rw [hsend, sendByte_of_not_ready hheld]

end Sys2Proof.Claims
end

section
/-! PROOFS about what an instruction leaves unchanged (10_state.md R12, 40_fetch_decode_dispatch.md R88, R89): each from
the ways an instruction can end. -/

namespace Sys2Proof.Machine

open Claims

/-! ## Registers -/

/-- The register file after a write, in the words of the statements. -/
theorem getElem_setReg_of_ne {s : State} {a r : RegIdx} (v : Word) (h : r ≠ a) : (s.setReg a v).x[r] = s.x[r] :=
  State.reg_setReg_of_ne s v h

/-- Only the register of the row is written. -/
theorem ExecTo.x_of_ne {i : Instr} {s t : State} (hexec : ExecTo i s t) {r : RegIdx} (hr : instrWrites i ≠ some r) :
    t.x[r] = s.x[r] := by
  have hne {a : RegIdx} (ha : instrWrites i = some a) : r ≠ a := fun e => hr (e ▸ ha)
  cases hexec with
  | wrote v ha => exact getElem_setReg_of_ne v (hne ha)
  | mapped ha => exact getElem_setReg_of_ne _ (hne rfl)
  | consumed | ended => exact getElem_setReg_of_ne _ (hne rfl)
  | _ => rfl

/-- An instruction whose row names no register leaves the register file as it is. -/
theorem ExecTo.x_eq {i : Instr} {s t : State} (hexec : ExecTo i s t) (hi : instrWrites i = none) : t.x = s.x :=
  State.x_eq_of_reg fun _ => hexec.x_of_ne (hi ▸ nofun)

/-! ## Arguments of the run, and the streams -/

/-- No instruction changes the arguments of the run. -/
theorem ExecTo.env_params {i : Instr} {s t : State} (hexec : ExecTo i s t) : t.env = s.env ∧ t.params = s.params := by
  cases hexec <;> exact ⟨rfl, rfl⟩

/-- The streams move only by OUT, one byte out, and by IN, one byte in or the end of the input. -/
theorem ExecTo.io_cases {i : Instr} {s t : State} (hexec : ExecTo i s t) :
    t.io = s.io ∨ (∃ c b, i = .out c ∧ t.io = { s.io with out := s.io.out ++ [b] }) ∨
      ∃ c, i = .inp c ∧ (t.io = { s.io with inPos := s.io.inPos + 1 } ∨ t.io = { s.io with eofSeen := true }) := by
  cases hexec with
  | emitted byte => exact .inr (.inl ⟨_, byte, rfl, rfl⟩)
  | consumed => exact .inr (.inr ⟨_, rfl, .inl rfl⟩)
  | ended => exact .inr (.inr ⟨_, rfl, .inr rfl⟩)
  | _ => exact .inl rfl

/-- Every instruction but OUT and IN leaves the streams as they are. -/
theorem ExecTo.io_eq {i : Instr} {s t : State} (hexec : ExecTo i s t) (hout : ∀ c, i ≠ .out c) (hinp : ∀ c, i ≠ .inp c) :
    t.io = s.io := by
  obtain h | ⟨c, -, hi, -⟩ | ⟨c, hi, -⟩ := hexec.io_cases
  · exact h
  · exact absurd hi (hout c)
  · exact absurd hi (hinp c)

/-! ## The store -/

/-- An instruction that writes a register, but MAP and IN, leaves the store and the streams as they are. -/
theorem ExecTo.store_io_eq {i : Instr} {a : RegIdx} {s t : State} (hexec : ExecTo i s t)
    (ha : instrWrites i = some a) (hmap : ∀ b c, i ≠ .map b c) (hinp : ∀ c, i ≠ .inp c) :
    t.store = s.store ∧ t.io = s.io := by
  cases hexec with
  | mapped => exact absurd rfl (hmap _ _)
  | consumed | ended => exact absurd rfl (hinp _)
  | stored | halted | unmapped | emitted | jumped | loaded => cases ha
  | _ => exact ⟨rfl, rfl⟩

/-- SSTORE stores one word, or raises its error and touches no memory. -/
theorem ExecTo.sstore_store {a b c : RegIdx} {s t : State} (hexec : ExecTo (.sstore a b c) s t) :
    memWrite s.store (s.reg a) (s.reg b) (s.reg c) = .ok t.store ∨ (t.store = s.store ∧ ∃ r, t.run = .faulted r) := by
  cases hexec with
  | raised => exact .inr ⟨rfl, _, rfl⟩
  | wrote v ha => cases ha
  | stored hw => exact .inl hw

/-- An allocation answers the next identifier of R21. -/
theorem allocate_eq_nextId {p : AllocPolicy} {st st' : Store} {n id : Word} (ha : allocate p st n = .ok (id, st')) :
    id = nextId st := by
  obtain ⟨-, ⟨rest, hpool, -⟩ | ⟨hpool, -, rfl, -⟩⟩ := allocate_eq_ok.1 ha
  · rw [nextId, hpool, List.head?_cons, Option.getD_some]
  · rw [nextId, hpool, List.head?_nil, Option.getD_none]

/-- Every other segment is untouched by an allocation. -/
theorem allocate_segment?_of_ne {p : AllocPolicy} {st st' : Store} {n id id' : Word}
    (ha : allocate p st n = .ok (id, st')) (h : id' ≠ id) : st'.segment? id' = st.segment? id' := by
  obtain ⟨-, ⟨rest, -, rfl⟩ | ⟨-, hlt, rfl, rfl⟩⟩ := allocate_eq_ok.1 ha
  · exact Store.segment?_setSlot_of_ne st _ h
  · have hne : id'.toNat ≠ st.table.length := fun e => h (by rw [← e, BitVec.ofNat_toNat, BitVec.setWidth_eq])
    rw [Store.segment?, Store.segment?, List.getElem?_append]
    split
    · rfl
    · rw [List.getElem?_eq_none (by simp; omega), List.getElem?_eq_none (by omega)]

/-- ReplaceProgram keeps the pool, the table's length and every segment but 0. -/
theorem replaceProgram_frame {p : AllocPolicy} {st st' : Store} {id : Word} (h0 : id ≠ 0#32)
    (hr : replaceProgram p st id = .ok st') :
    st'.pool = st.pool ∧ st'.table.length = st.table.length ∧
      ∀ id', id' ≠ 0#32 → st'.segment? id' = st.segment? id' := by
  obtain ⟨g, -, -, rfl⟩ := (replaceProgram_eq_ok h0).1 hr
  exact ⟨rfl, List.length_set, fun _ hne => Store.segment?_setSlot_of_ne st _ hne⟩

/-- MAP touches no segment but the one it creates. -/
theorem ExecTo.map_segment? {b c : RegIdx} {s t : State} (hexec : ExecTo (.map b c) s t) {id : Word}
    (hid : id ≠ nextId s.store) : t.store.segment? id = s.store.segment? id := by
  cases hexec with
  | raised | wrote => rfl
  | mapped ha => exact allocate_segment?_of_ne ha (allocate_eq_nextId ha ▸ hid)

/-- UNMAP touches no segment but the one it destroys. -/
theorem ExecTo.unmap_store {c : RegIdx} {s t : State} (hexec : ExecTo (.unmap c) s t) :
    t.store.table.length = s.store.table.length ∧
      ∀ id, id ≠ s.reg c → t.store.segment? id = s.store.segment? id := by
  cases hexec with
  | raised | wrote => exact ⟨rfl, fun _ _ => rfl⟩
  | unmapped hd => exact ⟨(deallocate_pool_length hd).2, fun _ hne => deallocate_segment?_of_ne hd hne⟩

/-- LOADP touches no segment but 0. -/
theorem ExecTo.loadp_store {b c : RegIdx} {s t : State} (hexec : ExecTo (.loadp b c) s t) :
    t.store.pool = s.store.pool ∧ t.store.table.length = s.store.table.length ∧
      ∀ id, id ≠ 0#32 → t.store.segment? id = s.store.segment? id := by
  cases hexec with
  | raised | wrote | jumped => exact ⟨rfl, rfl, fun _ _ => rfl⟩
  | loaded h0 hr => exact replaceProgram_frame h0 hr

end Sys2Proof.Machine

namespace Sys2Proof.Claims

open Sys2Proof.Machine

/-- Settles O36: each of the seven instructions writes A, and is neither MAP nor IN. -/
theorem registerInstructionsFrame : Obligations.RegisterInstructionsFrame := by
  intro a b c imm s t i hi hexec
  have hto := ExecTo.of_exec hexec
  obtain ⟨ha, hmap, hinp⟩ : instrWrites i = some a ∧ (∀ b c, i ≠ .map b c) ∧ ∀ c, i ≠ .inp c := by
    simp only [List.mem_cons, List.not_mem_nil, or_false] at hi
    rcases hi with rfl | rfl | rfl | rfl | rfl | rfl | rfl <;> exact ⟨rfl, nofun, nofun⟩
  obtain ⟨hstore, hio⟩ := hto.store_io_eq ha hmap hinp
  exact ⟨fun r hr => hto.x_of_ne fun e => hr (Option.some.inj (e.symm.trans ha)), fun _ _ => hstore ▸ rfl, hstore, hio,
    hto.env_params⟩

/-- Settles O37: the store's own frame when SSTORE stores, nothing at all when it faults. -/
theorem sstoreFrame : Obligations.SstoreFrame := by
  intro a b c s t hexec
  have hto := ExecTo.of_exec hexec
  obtain ⟨henv, hparams⟩ := hto.env_params
  refine ⟨hto.x_eq rfl, hto.io_eq nofun nofun, henv, hparams, ?_⟩
  obtain hw | ⟨hstore, r, hr⟩ := hto.sstore_store
  · obtain ⟨hpool, hlength⟩ := memWrite_pool_length hw
    exact ⟨hpool, hlength, memWrite_len hw, fun _ _ hne => memRead_memWrite_of_ne hw hne,
      fun hwf _ _ => memRead_memWrite_self hwf hw⟩
  · refine ⟨hstore ▸ rfl, hstore ▸ rfl, fun _ => hstore ▸ rfl, fun _ _ _ => hstore ▸ rfl, fun _ hrun hrunning => ?_⟩
    rw [hrun, hrunning] at hr
    cases hr

/-- Settles O38: the frames of the three operations of the store. -/
theorem allocationInstructionsFrame : Obligations.AllocationInstructionsFrame := by
  refine fun b c s t => ⟨fun hexec => ?map, fun hexec => ?unmap, fun hexec => ?loadp⟩ <;>
    have hto := ExecTo.of_exec hexec <;> obtain ⟨henv, hparams⟩ := hto.env_params
  case map =>
    exact ⟨fun r hr => hto.x_of_ne fun e => hr (Option.some.inj e).symm, hto.io_eq nofun nofun, henv, hparams,
      fun _ => hto.map_segment?⟩
  case unmap => exact ⟨hto.x_eq rfl, hto.io_eq nofun nofun, henv, hparams, hto.unmap_store⟩
  case loadp => exact ⟨hto.x_eq rfl, hto.io_eq nofun nofun, henv, hparams, hto.loadp_store⟩

/-- Settles O39: the ways HALT, OUT and IN can end. -/
theorem streamInstructionsFrame : Obligations.StreamInstructionsFrame := by
  refine fun c s t => ⟨fun hexec => ?halt, fun hexec => ?out, fun hexec => ?inp⟩
  case halt =>
    obtain rfl := Host.Outcome.next.inj hexec
    exact ⟨rfl, rfl, rfl, rfl, rfl, rfl⟩
  case out =>
    have hto := ExecTo.of_exec hexec
    refine ⟨hto.x_eq rfl, ?_⟩
    cases hto with
    | raised | emitted => exact ⟨rfl, rfl, rfl, rfl, rfl⟩
    | wrote v ha => cases ha
  case inp =>
    have hto := ExecTo.of_exec hexec
    refine ⟨fun r hr => hto.x_of_ne fun e => hr (Option.some.inj e).symm, ?_⟩
    cases hto with
    | raised cause _ hinp => exact absurd rfl (hinp c)
    | wrote | consumed | ended => exact ⟨rfl, rfl, rfl, rfl, rfl⟩

/-- Settles O40: by the ways an instruction can end. -/
theorem onlyTheNamedRegisterIsWritten : Obligations.OnlyTheNamedRegisterIsWritten :=
  fun _ _ _ _ hexec hr => (ExecTo.of_exec hexec).x_of_ne hr

end Sys2Proof.Claims
end

section
/-! PROOFS about the registers an instruction reads (10_state.md R12): with another register file that agrees on them,
every meaning ends in the same state but for the register file, and writes the same value. -/

namespace Sys2Proof.Machine

/-- The state with another register file. -/
def State.withX (s : State) (y : Vector Word 8) : State := { s with x := y }

/-- Two answers agree on everything but the register file; a register the first changed from x holds the same value
in both. -/
def AgreesOnChanges (x : Vector Word 8) (r r' : Result) : Prop :=
  ∀ t, r = .next t → ∃ z, r' = .next (t.withX z) ∧ ∀ i : RegIdx, t.x[i] ≠ x[i] → z[i] = t.x[i]

/-- A next state whose register file is the old one. -/
theorem agreesOnChanges_next {s u : State} (y : Vector Word 8) (hx : u.x = s.x) :
    AgreesOnChanges s.x (.next u) (.next (u.withX y)) := by
  rintro t ⟨⟩
  exact ⟨y, rfl, fun i hne => absurd (hx ▸ rfl) hne⟩

/-- A next state in which one register was written with one value. -/
theorem agreesOnChanges_setReg {s u : State} (y : Vector Word 8) (hx : u.x = s.x) (a : RegIdx) (v : Word) :
    AgreesOnChanges s.x (completed (u.setReg a v)) (completed ((u.withX y).setReg a v)) := by
  rintro t ⟨⟩
  refine ⟨y.set a v, rfl, fun i hne => ?_⟩
  obtain rfl : i = a := by
    by_contra hi
    exact hne ((State.reg_setReg_of_ne u v hi).trans (hx ▸ rfl))
  exact (State.reg_setReg_self (u.withX y) i v).trans (State.reg_setReg_self u i v).symm

theorem agreesOnChanges_raise (s : State) (y : Vector Word 8) (cause : Cause) :
    AgreesOnChanges s.x (raise cause s) (raise cause (s.withX y)) :=
  agreesOnChanges_next (u := s.setRun _) y rfl

/-- A sequence of two: the operation of the store sees no register. -/
theorem agreesOnChanges_orRaise {α : Type} {s : State} {y : Vector Word 8} (r : Except Cause α) {k k' : α → Result}
    (hk : ∀ a, AgreesOnChanges s.x (k a) (k' a)) : AgreesOnChanges s.x (orRaise s r k) (orRaise (s.withX y) r k') := by
  cases r with
  | error cause => exact agreesOnChanges_raise s y cause
  | ok a => exact hk a

theorem agreesOnChanges_sendByte (s : State) (y : Vector Word 8) (b : Byte) :
    AgreesOnChanges s.x (sendByte b s) (sendByte b (s.withX y)) := by
  cases h : s.env.outputReady with
  | true =>
    rw [sendByte_of_ready h, sendByte_of_ready (s := s.withX y) h]
    exact agreesOnChanges_next (u := (s.emit b).advance) y rfl
  | false =>
    rw [sendByte_of_not_ready h]
    exact nofun

/-- ADD, MUL and NAND, and DIV by a divisor that is not 0. -/
theorem agreesOnChanges_binary {s : State} {y : Vector Word 8} {b c : RegIdx} (f : Word → Word → Word) (a : RegIdx)
    (hb : (s.withX y).reg b = s.reg b) (hc : (s.withX y).reg c = s.reg c) :
    AgreesOnChanges s.x (binary f a b c s) (binary f a b c (s.withX y)) := by
  rw [binary, binary, hb, hc]
  exact agreesOnChanges_setReg y rfl a _

/-- DIV reads the divisor to choose its case, and the dividend in both. -/
theorem agreesOnChanges_div {s : State} {y : Vector Word 8} {b c : RegIdx} (a : RegIdx)
    (hb : (s.withX y).reg b = s.reg b) (hc : (s.withX y).reg c = s.reg c) :
    AgreesOnChanges s.x (exec (.div a b c) s) (exec (.div a b c) (s.withX y)) := by
  by_cases h0 : s.reg c = 0#32
  · rw [exec_div_of_eq h0, exec_div_of_eq (hc.trans h0), hb]
    exact agreesOnChanges_raise s y _
  · rw [exec_div_of_ne h0, exec_div_of_ne (hc ▸ h0)]
    exact agreesOnChanges_binary divWord a hb hc

/-- CMOV reads C to choose its case, and B in the case that writes. -/
theorem agreesOnChanges_cmov {s : State} {y : Vector Word 8} {b c : RegIdx} (a : RegIdx)
    (hb : (s.withX y).reg b = s.reg b) (hc : (s.withX y).reg c = s.reg c) :
    AgreesOnChanges s.x (exec (.cmov a b c) s) (exec (.cmov a b c) (s.withX y)) := by
  by_cases h0 : s.reg c = 0#32
  · rw [exec_cmov_of_eq h0, exec_cmov_of_eq (hc.trans h0)]
    exact agreesOnChanges_next (u := s.advance) y rfl
  · rw [exec_cmov_of_ne h0, exec_cmov_of_ne (hc ▸ h0), hb]
    exact agreesOnChanges_setReg y rfl a _

/-- OUT reads its value to choose its case, and sends or records it. -/
theorem agreesOnChanges_out {s : State} {y : Vector Word 8} {c : RegIdx} (hc : (s.withX y).reg c = s.reg c) :
    AgreesOnChanges s.x (exec (.out c) s) (exec (.out c) (s.withX y)) := by
  by_cases hle : (s.reg c).toNat ≤ 255
  · rw [exec_out_of_le hle, exec_out_of_le (hc ▸ hle), hc]
    exact agreesOnChanges_sendByte s y _
  · have hgt := Nat.lt_of_not_le hle
    cases hp : s.params.outGt255 with
    | fault =>
      rw [exec_out_of_fault hgt hp, exec_out_of_fault (s := s.withX y) (hc ▸ hgt) hp, hc]
      exact agreesOnChanges_raise s y _
    | mask =>
      rw [exec_out_of_mask hp, exec_out_of_mask (s := s.withX y) hp, hc]
      exact agreesOnChanges_sendByte s y _

/-- IN reads the streams alone. -/
theorem agreesOnChanges_inp (s : State) (y : Vector Word 8) (c : RegIdx) :
    AgreesOnChanges s.x (exec (.inp c) s) (exec (.inp c) (s.withX y)) := by
  match hin : s.inputAnswer with
  | some (.byte b) =>
    rw [exec_inp_of_byte hin, exec_inp_of_byte (s := s.withX y) hin]
    exact agreesOnChanges_setReg (u := s.consume) y rfl c _
  | some .eof =>
    rw [exec_inp_of_eof hin, exec_inp_of_eof (s := s.withX y) hin]
    exact agreesOnChanges_setReg (u := s.noteEof) y rfl c _
  | none =>
    rw [exec_inp_of_none hin]
    exact nofun

/-- LOADP reads the identifier to choose its case, and the target in both. -/
theorem agreesOnChanges_loadp {s : State} {y : Vector Word 8} {b c : RegIdx} (hb : (s.withX y).reg b = s.reg b)
    (hc : (s.withX y).reg c = s.reg c) : AgreesOnChanges s.x (exec (.loadp b c) s) (exec (.loadp b c) (s.withX y)) := by
  by_cases h0 : s.reg b = 0#32
  · rw [exec_loadp_of_eq h0, exec_loadp_of_eq (hb.trans h0), hc]
    exact agreesOnChanges_next (u := s.setPc _) y rfl
  · rw [exec_loadp_of_ne h0, exec_loadp_of_ne (hb ▸ h0), hb, hc]
    exact agreesOnChanges_orRaise _ fun st => agreesOnChanges_next (u := (s.setStore st).setPc _) y rfl

/-- The registers an instruction does not read do not matter. -/
theorem exec_agreesOnChanges {i : Instr} {s : State} {y : Vector Word 8}
    (hreads : ∀ r ∈ instrReads i, (s.withX y).reg r = s.reg r) :
    AgreesOnChanges s.x (exec i s) (exec i (s.withX y)) := by
  cases i <;> simp only [instrReads, List.forall_mem_cons, List.not_mem_nil, false_implies, implies_true,
    and_true] at hreads
  case cmov a b c => exact agreesOnChanges_cmov a hreads.1 hreads.2
  case sload a b c =>
    obtain ⟨hb, hc⟩ := hreads
    simp only [exec, execSload, hb, hc]
    exact agreesOnChanges_orRaise _ fun v => agreesOnChanges_setReg y rfl a v
  case sstore a b c =>
    obtain ⟨ha, hb, hc⟩ := hreads
    simp only [exec, execSstore, ha, hb, hc]
    exact agreesOnChanges_orRaise _ fun st => agreesOnChanges_next (u := (s.setStore st).advance) y rfl
  case add a b c => exact agreesOnChanges_binary addWord a hreads.1 hreads.2
  case mul a b c => exact agreesOnChanges_binary mulWord a hreads.1 hreads.2
  case nand a b c => exact agreesOnChanges_binary nandWord a hreads.1 hreads.2
  case div a b c => exact agreesOnChanges_div a hreads.1 hreads.2
  case halt => exact agreesOnChanges_next (u := s.setRun .halted) y rfl
  case map b c =>
    simp only [exec, execMap, hreads]
    exact agreesOnChanges_orRaise _ fun r => agreesOnChanges_setReg (u := s.setStore r.2) y rfl b r.1
  case unmap c =>
    simp only [exec, execUnmap, hreads]
    exact agreesOnChanges_orRaise _ fun st => agreesOnChanges_next (u := (s.setStore st).advance) y rfl
  case out c => exact agreesOnChanges_out hreads
  case inp c => exact agreesOnChanges_inp s y c
  case loadp b c => exact agreesOnChanges_loadp hreads.1 hreads.2
  case loadi a imm => exact agreesOnChanges_setReg y rfl a _

end Sys2Proof.Machine

namespace Sys2Proof.Claims

open Sys2Proof.Machine

/-- Settles O41: the two runs differ in the register file alone, and not in the value written. -/
theorem onlyTheNamedRegistersAreRead : Obligations.OnlyTheNamedRegistersAreRead := by
  intro i s t y hreads hexec
  obtain ⟨z, hz, hchanged⟩ := exec_agreesOnChanges hreads t hexec
  exact ⟨_, hz, rfl, rfl, rfl, rfl, hchanged⟩

end Sys2Proof.Claims
end

section
/-! PROOFS about the step as a whole (40_fetch_decode_dispatch.md): fetch and decode errors, the run state, the pc, the
streams, and the two waits. -/

namespace Sys2Proof.Machine

open Claims

/-! ## Steps that run no instruction -/

/-- A fetch that fails ends the step in its error. -/
theorem step_of_fetch_error {s : State} {cause : Cause} (hrun : s.run = .running) (hf : fetch s = .error cause) :
    step s = .next (afterFault cause s) := by
  simp only [step, hrun, hf, orRaise_error, raise_eq_afterFault]

/-- A word that is no instruction ends the step in DECODE. -/
theorem step_of_decode_none {s : State} {w : Word} (hrun : s.run = .running)
    (hread : memRead s.store 0#32 s.pc = .ok w) (hdec : decode w = none) :
    step s = .next (afterFault (.decode w) s) := by
  have hf : fetch s = .ok w := fetch_eq_ok_iff_memRead.2 hread
  simp only [step, hrun, hf, orRaise_ok, hdec, raise_eq_afterFault]

/-! ## The run state and the pc -/

/-- A running machine goes on by its next instruction, halts by HALT, or faults and changes nothing else. -/
theorem step_run_cases {s t : State} (hrun : s.run = .running) (h : step s = .next t) :
    (t.run = .running ∧ ∃ i, nextInstr s = some i ∧ i ≠ .halt ∧ ExecTo i s t) ∨
      (nextInstr s = some .halt ∧ t = s.setRun .halted) ∨
        (nextInstr s ≠ some .halt ∧ ∃ cause, t = s.setRun (.faulted { cause := cause, pc := s.pc })) := by
  obtain ⟨hnone, hfault⟩ | ⟨i, hi, hexec⟩ := step_running_eq_next hrun h
  · exact .inr (.inr ⟨hnone ▸ nofun, hfault⟩)
  · obtain hgo | ⟨rfl, rfl⟩ | ⟨hhalt, hfault⟩ := hexec.run_cases
    · refine .inl ⟨hgo.trans hrun, i, hi, ?_, hexec⟩
      rintro rfl
      cases hexec with
      | raised _ hhalt => exact hhalt rfl
      | wrote v ha => cases ha
      | halted => cases hgo.trans hrun
    · exact .inr (.inl ⟨hi, rfl⟩)
    · exact .inr (.inr ⟨fun e => hhalt (Option.some.inj (hi.symm.trans e)), hfault⟩)

/-- Where an instruction that goes on leaves the pc (R87). -/
theorem ExecTo.pc_of_running {i : Instr} {s t : State} (hexec : ExecTo i s t) (hgo : t.run = .running) :
    (∀ b c, i = .loadp b c → t.pc = s.x[c]) ∧ ((∀ b c, i ≠ .loadp b c) → t.pc = s.pc + 1#32) := by
  cases hexec with
  | raised | halted => cases hgo
  | jumped | loaded => exact ⟨fun _ _ e => by cases e; rfl, fun hne => absurd rfl (hne _ _)⟩
  | wrote v ha =>
    refine ⟨fun b c e => ?_, fun _ => rfl⟩
    subst e
    cases ha
  | _ => exact ⟨nofun, fun _ => rfl⟩

/-- A machine that has a next instruction has its pc below the word count of segment 0, so pc + 1 does not wrap. -/
theorem pc_succ_toNat_of_nextInstr {s : State} {i : Instr} (hi : nextInstr s = some i) :
    (s.pc + 1#32).toNat = s.pc.toNat + 1 := by
  obtain ⟨w, hread⟩ : ∃ w, memRead s.store 0#32 s.pc = .ok w := by
    unfold nextInstr at hi
    split at hi
    next w hread => exact ⟨w, hread⟩
    next => cases hi
  obtain ⟨g, -, hlt, -⟩ := memRead_eq_ok.1 hread
  have hlen := g.len.isLt
  rw [BitVec.toNat_add, BitVec.toNat_ofNat]
  omega

/-! ## The streams and the arguments of the run -/

/-- The streams move only in a step that executes OUT or IN. -/
theorem step_io_cases {s t : State} (h : step s = .next t) :
    t.io = s.io ∨
      (∃ c b, s.run = .running ∧ nextInstr s = some (.out c) ∧ t.io = { s.io with out := s.io.out ++ [b] }) ∨
        ∃ c, s.run = .running ∧ nextInstr s = some (.inp c) ∧
          (t.io = { s.io with inPos := s.io.inPos + 1 } ∨ t.io = { s.io with eofSeen := true }) := by
  by_cases hrun : s.run = .running
  · obtain ⟨-, cause, rfl⟩ | ⟨i, hi, hexec⟩ := step_running_eq_next hrun h
    · exact .inl rfl
    · obtain hio | ⟨c, b, rfl, hio⟩ | ⟨c, rfl, hio⟩ := hexec.io_cases
      · exact .inl hio
      · exact .inr (.inl ⟨c, b, hrun, hi, hio⟩)
      · exact .inr (.inr ⟨c, hrun, hi, hio⟩)
  · rw [step_of_not_running hrun] at h
    cases h
    exact .inl rfl

/-- A step leaves the arguments of the run as they are. -/
theorem step_env_params {s t : State} (h : step s = .next t) : t.env = s.env ∧ t.params = s.params := by
  by_cases hrun : s.run = .running
  · obtain ⟨-, cause, rfl⟩ | ⟨i, -, hexec⟩ := step_running_eq_next hrun h
    · exact ⟨rfl, rfl⟩
    · exact hexec.env_params
  · rw [step_of_not_running hrun] at h
    cases h
    exact ⟨rfl, rfl⟩

/-! ## The two waits (log 3, log 4) -/

/-- An operation of the store never keeps an instruction from ending. -/
theorem exists_orRaise_eq_next {α : Type} (s : State) (r : Except Cause α) {k : α → Result}
    (hk : ∀ a, ∃ t, k a = .next t) : ∃ t, orRaise s r k = .next t := by
  cases r with
  | error cause => exact ⟨_, rfl⟩
  | ok a => exact hk a

/-- A byte is sent, or held back while the environment does not accept it. -/
theorem sendByte_next_or_waits (b : Byte) (s : State) :
    (∃ t, sendByte b s = .next t) ∨ (s.env.outputReady = false ∧ sendByte b s = .fault .awaitingOutput) := by
  cases h : s.env.outputReady with
  | true => exact .inl ⟨_, sendByte_of_ready h⟩
  | false => exact .inr ⟨rfl, sendByte_of_not_ready h⟩

/-- OUT has a next state, or waits. -/
theorem exec_out_next_or_waits (c : RegIdx) (s : State) :
    (∃ t, exec (.out c) s = .next t) ∨ (s.env.outputReady = false ∧ exec (.out c) s = .fault .awaitingOutput) := by
  by_cases hle : (s.reg c).toNat ≤ 255
  · rw [exec_out_of_le hle]
    exact sendByte_next_or_waits ..
  · cases hp : s.params.outGt255 with
    | fault => exact .inl ⟨_, exec_out_of_fault (Nat.lt_of_not_le hle) hp⟩
    | mask =>
      rw [exec_out_of_mask hp]
      exact sendByte_next_or_waits ..

/-- IN has a next state, or waits. -/
theorem exec_inp_next_or_waits (c : RegIdx) (s : State) :
    (∃ t, exec (.inp c) s = .next t) ∨ (s.inputAnswer = none ∧ exec (.inp c) s = .fault .awaitingInput) := by
  match hin : s.inputAnswer with
  | some (.byte b) => exact .inl ⟨_, exec_inp_of_byte hin⟩
  | some .eof => exact .inl ⟨_, exec_inp_of_eof hin⟩
  | none => exact .inr ⟨rfl, exec_inp_of_none hin⟩

/-- Every instruction but IN and OUT has a next state in every state. -/
theorem exists_exec_eq_next {i : Instr} (s : State) (hinp : ∀ c, i ≠ .inp c) (hout : ∀ c, i ≠ .out c) :
    ∃ t, exec i s = .next t := by
  cases i with
  | sload | sstore | map | unmap => exact exists_orRaise_eq_next s _ fun _ => ⟨_, rfl⟩
  | cmov | add | mul | nand | halt | loadi => exact ⟨_, rfl⟩
  | div a b c =>
    by_cases h0 : s.reg c = 0#32
    · exact ⟨_, exec_div_of_eq h0⟩
    · exact ⟨_, exec_div_of_ne h0⟩
  | loadp b c =>
    by_cases h0 : s.reg b = 0#32
    · exact ⟨_, exec_loadp_of_eq h0⟩
    · rw [exec_loadp_of_ne h0]
      exact exists_orRaise_eq_next s _ fun _ => ⟨_, rfl⟩
  | out c => exact absurd rfl (hout c)
  | inp c => exact absurd rfl (hinp c)

/-- A step has a next state unless it executes an instruction. -/
theorem exists_step_eq_next_or_exec (s : State) :
    (∃ t, step s = .next t) ∨ ∃ i, s.run = .running ∧ nextInstr s = some i ∧ step s = exec i s := by
  by_cases hrun : s.run = .running
  · obtain ⟨cause, -, hs⟩ | ⟨w, -, -, hs⟩ | ⟨w, i, hf, hd, hs⟩ := step_running_cases hrun
    · exact .inl ⟨_, hs⟩
    · exact .inl ⟨_, hs⟩
    · exact .inr ⟨i, hrun, (nextInstr_of_fetch hf).trans hd, hs⟩
  · exact .inl ⟨s, step_of_not_running hrun⟩

/-! ## A word placed where the step fetches (log 10) -/

/-- A canonical list stays canonical under a higher upper bound. -/
theorem cellsWf_mono_hi {lo hi hi' : Nat} {cs : List Cell} (h : cellsWf lo hi cs = true) (hle : hi ≤ hi') :
    cellsWf lo hi' cs = true := by
  induction cs generalizing lo with
  | nil => rfl
  | cons c rest ih =>
    obtain ⟨k, v⟩ := c
    simp only [cellsWf, Bool.and_eq_true, decide_eq_true_eq] at h ⊢
    obtain ⟨⟨⟨hlo, hhi⟩, hv⟩, hrest⟩ := h
    exact ⟨⟨⟨hlo, hhi.trans_le hle⟩, hv⟩, ih hrest⟩

/-- The word count of a segment made long enough for one offset. -/
def lenFor (len pc : Word) : Word := if pc.toNat < len.toNat then len else pc + 1#32

theorem lt_lenFor {len pc : Word} (hpc : pc ≠ allOnes) : pc.toNat < (lenFor len pc).toNat := by
  have hne : pc.toNat ≠ 4294967295 := fun e => hpc (BitVec.eq_of_toNat_eq e)
  have hlt := pc.isLt
  unfold lenFor
  split
  · assumption
  · rw [BitVec.toNat_add, BitVec.toNat_ofNat]
    omega

theorem le_lenFor {len pc : Word} (hpc : pc ≠ allOnes) : len.toNat ≤ (lenFor len pc).toNat := by
  by_cases h : pc.toNat < len.toNat
  · rw [lenFor, if_pos h]
  · exact (Nat.le_of_not_lt h).trans (lt_lenFor hpc).le

/-- The pc of a placement is never the last one. -/
theorem withFetchWord_pc_ne (s : State) (nbits w : Nat) : (s.withFetchWord nbits w).pc ≠ allOnes := by
  show (if s.pc = allOnes then 0#32 else s.pc) ≠ allOnes
  split
  · decide
  · assumption

/-- The segment 0 of a canonical memory, or the empty one, is canonical. -/
theorem segment?_zero_getD_wf {st : Store} (hwf : Memory.wf st = true) :
    ((st.segment? 0#32).getD (.zeroed 0#32)).wf = true := by
  cases h : st.segment? 0#32 with
  | none => rfl
  | some g => exact Memory.wf_segment hwf h

/-- The word placed is the word a load at the pc reads. -/
theorem memRead_withFetchWord {s : State} (hwf : Memory.wf s.store = true) (nbits w : Nat) :
    memRead (s.withFetchWord nbits w).store 0#32 (s.withFetchWord nbits w).pc =
      .ok (BitVec.ofNat 32 (w % 2 ^ nbits)) := by
  have hpc := withFetchWord_pc_ne s nbits w
  have hold := segment?_zero_getD_wf hwf
  have hlonger : Segment.wf { (s.store.segment? 0#32).getD (.zeroed 0#32) with
      len := lenFor ((s.store.segment? 0#32).getD (.zeroed 0#32)).len (s.withFetchWord nbits w).pc } = true :=
    cellsWf_mono_hi hold (le_lenFor hpc)
  exact memRead_eq_ok.2 ⟨_, rfl, lt_lenFor hpc, Segment.word_setWord_self hlonger _ _⟩

end Sys2Proof.Machine

namespace Sys2Proof.Claims

open Sys2Proof.Machine

/-- Settles O13: the step is fetch, decode and exec. -/
theorem stepRunsTheDecodedInstruction : Obligations.StepRunsTheDecodedInstruction :=
  fun _ _ _ => step_eq_exec_of_memRead

/-- Settles O14: what fetch refuses. -/
theorem fetchOutsideSegmentZeroFaults : Obligations.FetchOutsideSegmentZeroFaults :=
  fun _ g hrun hg hle => step_of_fetch_error hrun (fetch_eq_error.2 (.inr ⟨g, hg, hle, rfl⟩))

/-- Settles O15: the words that are no instruction. -/
theorem illegalWordsFault : Obligations.IllegalWordsFault :=
  fun _ w hrun hread hge => step_of_decode_none hrun hread ((onlyOpcodes14And15AreRefused w).2 hge)

/-- Settles O16: the step tests the run state first. -/
theorem terminalStatesStay : Obligations.TerminalStatesStay :=
  fun _ => step_of_not_running

/-- Settles O17: only IN and OUT can lack a next state. -/
theorem stepStopsOnlyToWait : Obligations.StepStopsOnlyToWait := by
  intro s
  obtain hnext | ⟨i, hrun, hi, hs⟩ := exists_step_eq_next_or_exec s
  · exact .inl hnext
  · rw [hs, hi]
    by_cases hinp : ∃ c, i = .inp c
    · obtain ⟨c, rfl⟩ := hinp
      exact (exec_inp_next_or_waits c s).imp_right fun hwait => .inl ⟨c, hrun, rfl, hwait⟩
    · by_cases hout : ∃ c, i = .out c
      · obtain ⟨c, rfl⟩ := hout
        exact (exec_out_next_or_waits c s).imp_right fun hwait => .inr ⟨c, hrun, rfl, hwait⟩
      · exact .inl (exists_exec_eq_next s (not_exists.1 hinp) (not_exists.1 hout))

/-- Settles O18: the word placed is the word fetched. -/
theorem placedWordIsRun : Obligations.PlacedWordIsRun :=
  fun _ nbits w _ hwf hdec => step_eq_exec_of_memRead rfl (memRead_withFetchWord hwf nbits w) hdec

/-- Settles O42: a step that goes on or halts does not end in FAULTED. -/
theorem faultsChangeOnlyTheRunState : Obligations.FaultsChangeOnlyTheRunState := by
  intro s t r hrun h hfault
  obtain ⟨hgo, -⟩ | ⟨-, rfl⟩ | ⟨-, cause, rfl⟩ := step_run_cases hrun h
  · cases hgo.symm.trans hfault
  · cases hfault
  · cases hfault
    exact ⟨rfl, rfl⟩

/-- Settles O43: of the three ways a step can end, HALT's alone is HALTED. -/
theorem onlyHaltEndsWell : Obligations.OnlyHaltEndsWell := by
  intro s t hrun h
  obtain ⟨hgo, i, hi, hhalt, -⟩ | ⟨hi, rfl⟩ | ⟨hhalt, cause, rfl⟩ := step_run_cases hrun h
  · exact iff_of_false (hgo ▸ nofun) fun e => hhalt (Option.some.inj (hi.symm.trans e))
  · exact iff_of_true rfl hi
  · exact iff_of_false nofun hhalt

/-- Settles O44: the pc moves only in an instruction that goes on. -/
theorem pcMovesAsTheTableSays : Obligations.PcMovesAsTheTableSays := by
  intro s t hrun h
  obtain ⟨hgo, i, hi, -, hexec⟩ | ⟨-, rfl⟩ | ⟨-, cause, rfl⟩ := step_run_cases hrun h
  · exact ⟨fun hne => absurd hgo hne, fun _ => ⟨i, hi, hexec.pc_of_running hgo⟩⟩
  · exact ⟨fun _ => rfl, nofun⟩
  · exact ⟨fun _ => rfl, nofun⟩

/-- Settles O45: by the ways the streams can move. -/
theorem streamsMoveOnlyByOutAndIn : Obligations.StreamsMoveOnlyByOutAndIn := by
  intro s t h
  obtain hio | ⟨c, b, hrun, hi, hio⟩ | ⟨c, hrun, hi, hio | hio⟩ := step_io_cases h <;> rw [hio]
  · exact ⟨.inl rfl, .inl rfl, .inl rfl⟩
  · exact ⟨.inr ⟨c, b, hrun, hi, rfl⟩, .inl rfl, .inl rfl⟩
  · exact ⟨.inl rfl, .inr ⟨c, hrun, hi, rfl⟩, .inl rfl⟩
  · exact ⟨.inl rfl, .inl rfl, .inr ⟨c, hrun, hi, rfl⟩⟩

/-- Settles O46: no way a step can end touches them. -/
theorem argumentsOfTheRunNeverChange : Obligations.ArgumentsOfTheRunNeverChange :=
  fun _ _ => step_env_params

/-- Settles O53: an instruction was fetched below the word count of segment 0. -/
theorem pcNeverWraps : Obligations.PcNeverWraps := by
  intro s t _ hrun h hloadp hgo
  obtain ⟨-, hmoves⟩ := pcMovesAsTheTableSays s t hrun h
  obtain ⟨i, hi, -, hpc⟩ := hmoves hgo
  rw [hpc fun b c e => hloadp b c (e ▸ hi), pc_succ_toNat_of_nextInstr hi]

/-- Settles O58: the word stored reads back at the pc the store left. -/
theorem storesToTheProgramAreFetched : Obligations.StoresToTheProgramAreFetched := by
  intro s t a b c i hinv hrun hi ha hb hdec h hgo
  obtain ⟨⟨-, -, -, -, -, hwf⟩, -⟩ := hinv
  have hexec : ExecTo (.sstore a b c) s t := .of_exec (step_eq_exec_of_nextInstr hrun hi ▸ h)
  have hpc : t.pc = s.x[b] := ((hexec.pc_of_running hgo).2 nofun).trans hb.symm
  obtain hw | ⟨-, r, hr⟩ := hexec.sstore_store
  · have hread : memRead t.store s.x[a] s.x[b] = .ok s.x[c] := memRead_memWrite_self hwf hw
    exact step_eq_exec_of_memRead hgo (by rw [hpc, ← ha, hread]) hdec
  · cases hgo.symm.trans hr

end Sys2Proof.Claims
end

section
/-! PROOFS about the assembler (30_encoding.md R70, R71): it refuses a line exactly when a number on it does not fit. -/

namespace Sys2Proof

/-- A register number above 7 is refused. -/
theorem isSome_reg? (n : Nat) : (reg? n).isSome = regOk n := by
  by_cases h : n < 8 <;> simp [reg?, regOk, h]

/-- An immediate above 33554431 is refused. -/
theorem isSome_imm? (n : Nat) : (imm? n).isSome = immOk n := by
  by_cases h : n ≤ 33554431 <;> simp [imm?, immOk, h]

/-- A register's own number is accepted as that register. -/
theorem reg?_val (r : RegIdx) : reg? r.val = some r :=
  dif_pos r.isLt

/-- An immediate's own number is accepted as that immediate. -/
theorem imm?_toNat (imm : Imm) : imm? imm.toNat = some imm := by
  rw [imm?, if_pos (Nat.le_of_lt_succ imm.isLt), BitVec.ofNat_toNat, BitVec.setWidth_eq]

section
variable {α β γ δ : Type}

/-- A line with one operand is refused exactly when the operand is. -/
theorem isSome_do_one (f : α → δ) (a : Option α) : (do return f (← a) : Option δ).isSome = a.isSome := by
  cases a <;> rfl

/-- A line with two operands is refused exactly when one of them is. -/
theorem isSome_do_two (f : α → β → δ) (a : Option α) (b : Option β) :
    (do return f (← a) (← b) : Option δ).isSome = (a.isSome && b.isSome) := by
  cases a with
  | none => rfl
  | some a => exact isSome_do_one (f a) b

/-- A line with three operands is refused exactly when one of them is. -/
theorem isSome_do_three (f : α → β → γ → δ) (a : Option α) (b : Option β) (c : Option γ) :
    (do return f (← a) (← b) (← c) : Option δ).isSome = (a.isSome && b.isSome && c.isSome) := by
  cases a with
  | none => rfl
  | some a => exact isSome_do_two (f a) b c

end

/-- A line that is no `.word` stands for an instruction exactly when its numbers fit. -/
theorem isSome_instr? {l : AsmLine} (hword : ∀ v, l ≠ .word v) : l.instr?.isSome = l.wf := by
  cases l with
  | word v => exact absurd rfl (hword v)
  | halt => rfl
  | unmap | out | inp => exact (isSome_do_one ..).trans (isSome_reg? _)
  | _ => simp only [AsmLine.instr?, AsmLine.wf, isSome_do_two, isSome_do_three, isSome_reg?, isSome_imm?]

/-- A line that is no `.word` has its instruction's canonical word. -/
theorem assemble_eq_map_encode {l : AsmLine} (hword : ∀ v, l ≠ .word v) : assemble l = l.instr?.map encode := by
  cases l with
  | word v => exact absurd rfl (hword v)
  | _ => rfl

/-- The assembler accepts exactly the lines whose numbers fit. -/
theorem isSome_assemble (l : AsmLine) : (assemble l).isSome = l.wf := by
  by_cases h : ∃ v, l = .word v
  · obtain ⟨v, rfl⟩ := h
    cases hv : wordOk v <;> simp [assemble, AsmLine.wf, hv]
  · have hword := not_exists.1 h
    rw [assemble_eq_map_encode hword, Option.isSome_map, isSome_instr? hword]

/-- The line of an instruction stands for it. -/
theorem instr?_toAsm (i : Instr) : i.toAsm.instr? = some i := by
  cases i <;> simp [Instr.toAsm, AsmLine.instr?, reg?_val, imm?_toNat]

end Sys2Proof

namespace Sys2Proof.Claims

/-- Settles O8: a line is accepted when each of its numbers is. -/
theorem assemblerRefusesWhatDoesNotFit : Obligations.AssemblerRefusesWhatDoesNotFit := by
  refine ⟨fun l => ?_, fun i => ?_⟩
  · rw [← isSome_assemble, Option.isSome_eq_false_iff, Option.isNone_iff_eq_none]
  · have hword : ∀ v, i.toAsm ≠ .word v := by cases i <;> exact nofun
    rw [assemble_eq_map_encode hword, instr?_toAsm, Option.map_some]

end Sys2Proof.Claims
end

section
/-! PROOFS about reset (10_state.md R23, 70_reset_and_hazards.md R222), the environment's moves (50_interfaces.md R178)
and the states a machine can reach. -/

namespace Sys2Proof.Machine

/-! ## The boot check (R222) -/

/-- An image of words has a length that is a multiple of 4. -/
theorem length_of_wordsOfImage {image : List Byte} {ws : List Word} (h : wordsOfImage image = some ws) :
    image.length = 4 * ws.length := by
  induction image using wordsOfImage.induct generalizing ws with
  | case1 =>
    obtain rfl := Option.some.inj h
    rfl
  | case2 b0 b1 b2 b3 rest ih =>
    obtain ⟨ws', hws', rfl⟩ := wordsOfImage_cons_eq_some.1 h
    simp only [List.length_cons, ih hws']
    omega
  | case3 image hnil hcons => simp [wordsOfImage.eq_3 image hnil hcons] at h

/-- A bad length is refused before anything else (log 24). -/
theorem loadImage_of_bad_length {p : AllocPolicy} {image : List Byte} (h : image.length % 4 ≠ 0) :
    loadImage p image = .error .badLength := by
  have hnone : wordsOfImage image = none := by
    rw [Option.eq_none_iff_forall_ne_some]
    intro ws hws
    have := length_of_wordsOfImage hws
    omega
  rw [loadImage, hnone]

/-- An image of n words is accepted when it is empty, or its words can be counted and held (log 13). -/
theorem loadImage_of_length {p : AllocPolicy} {image : List Byte} {n : Nat} (h : image.length = 4 * n) :
    ∃ ws, loadImage p image =
      if n = 0 ∨ n < Config.maxSlots ∧ p.admits { table := [], pool := [] } (BitVec.ofNat 32 n) then .ok ws
      else .error .tooManyWords := by
  obtain ⟨ws, hws, rfl⟩ := exists_wordsOfImage_of_length h
  exact ⟨ws, by simp only [loadImage, hws, List.length_eq_zero_iff]⟩

/-- The machine that refuses an image is faulted, with segment 0 empty (log 12). -/
theorem State.boot_of_loadImage_error {p : Params} {image : List Byte} {why : BootReason}
    (h : loadImage p.allocOk image = .error why) (e : Environment) :
    State.boot p e image = bootState p e (.zeroed 0#32) (.faulted { cause := .bootImage why, pc := 0#32 }) := by
  rw [State.boot, h]

/-- What a refused boot shows: the run state, the info words, and a step that changes nothing. -/
theorem boot_refused {p : Params} {image : List Byte} {why : BootReason} (h : loadImage p.allocOk image = .error why)
    (e : Environment) :
    (State.boot p e image).run = .faulted { cause := .bootImage why, pc := 0#32 } ∧
      (State.boot p e image).faultInfo = ((Cause.bootImage why).info0, (Cause.bootImage why).info1) ∧
        step (State.boot p e image) = .next (State.boot p e image) := by
  rw [State.boot_of_loadImage_error h]
  exact ⟨rfl, rfl, step_of_not_running nofun⟩

/-! ## The invariant at reset -/

/-- A table of one live canonical segment and an empty pool meet the store's invariant. -/
theorem oneSegment_inv {g : Segment} (hg : g.wf = true) : Store.Inv { table := [some g], pool := [] } := by
  refine ⟨rfl, nofun, fun k hk hnone => ?_, List.nodup_nil, Nat.le_of_ble_eq_true rfl, Memory.wf_iff.2 fun g' hg' => ?_⟩
  · obtain rfl : k = 0 := Nat.lt_one_iff.1 hk
    cases hnone
  · obtain rfl : g' = g := by simpa using hg'
    exact hg

/-- A machine that has just been reset meets the invariant, whatever image it was given. -/
theorem boot_inv (p : Params) (e : Environment) (image : List Byte) : (State.boot p e image).Inv := by
  have hio {g : Segment} {r : RunState} : (bootState p e g r).StreamsInv := ⟨Nat.zero_le _, nofun⟩
  cases h : loadImage p.allocOk image with
  | ok ws =>
    obtain ⟨-, hlt⟩ := of_loadImage_eq_ok h
    rw [State.boot_of_loadImage h]
    exact ⟨oneSegment_inv (Segment.ofWords_wf hlt), hio, rfl⟩
  | error why =>
    rw [State.boot_of_loadImage_error h]
    exact ⟨oneSegment_inv (Segment.zeroed_wf _), hio, rfl⟩

/-! ## The environment's moves -/

/-- A delivery after the end of the input is ignored (log 22). -/
theorem envMove_deliver_of_ended {s : State} (h : s.env.inputEnded = true) (b : Byte) : envMove (.deliver b) s = s :=
  if_pos h

/-- Any other delivery makes one more byte available. -/
theorem envMove_deliver_of_open {s : State} (h : ¬ s.env.inputEnded = true) (b : Byte) :
    envMove (.deliver b) s = { s with env := { s.env with input := s.env.input ++ [b] } } :=
  if_neg h

/-- A delivery comes before the end of the input, so it never breaks what an end-of-input seen says. -/
theorem deliver_inv {s : State} (h : s.Inv) (b : Byte) : (envMove (.deliver b) s).Inv := by
  by_cases hended : s.env.inputEnded = true
  · rwa [envMove_deliver_of_ended hended]
  · rw [envMove_deliver_of_open hended]
    obtain ⟨hstore, ⟨hle, hseen⟩, hpc⟩ := h
    have hle' : s.io.inPos ≤ (s.env.input ++ [b]).length := by
      rw [List.length_append]
      exact Nat.le_add_right_of_le hle
    exact ⟨hstore, ⟨hle', fun heof => absurd (hseen heof).1 hended⟩, hpc⟩

/-- Every move of the environment keeps the invariant. -/
theorem envMove_inv {s : State} (h : s.Inv) (m : EnvMove) : (envMove m s).Inv := by
  cases m with
  | deliver b => exact deliver_inv h b
  | endInput =>
    obtain ⟨hstore, ⟨hle, hseen⟩, hpc⟩ := h
    exact ⟨hstore, ⟨hle, fun heof => ⟨rfl, (hseen heof).2⟩⟩, hpc⟩
  | setOutputReady r => exact h
  | reset image e => exact boot_inv s.params e image

/-- Every move but reset changes the environment's part alone. -/
theorem envMove_eq_of_ne_reset {m : EnvMove} (h : ∀ image e, m ≠ .reset image e) (s : State) :
    ∃ e, envMove m s = { s with env := e } := by
  cases m with
  | deliver b =>
    by_cases hended : s.env.inputEnded = true
    · exact ⟨s.env, envMove_deliver_of_ended hended b⟩
    · exact ⟨_, envMove_deliver_of_open hended b⟩
  | endInput => exact ⟨_, rfl⟩
  | setOutputReady r => exact ⟨_, rfl⟩
  | reset image e => exact absurd rfl (h image e)

/-- The invariant holds at reset and is kept by every step and every move. -/
theorem Reachable.inv {s : State} (h : Reachable s) : s.Inv := by
  induction h with
  | boot p e image => exact boot_inv p e image
  | step s t _ hstep ih => exact step_inv ih hstep
  | env m s _ ih => exact envMove_inv ih m

/-! ## The status interface (10_state.md R19) -/

theorem status_of_running {s : State} (h : s.run = .running) : s.status = 0#32 := by
  rw [State.status, h]
  rfl

theorem status_of_halted {s : State} (h : s.run = .halted) : s.status = 1#32 := by
  rw [State.status, h]
  rfl

/-- RUN and CAUSE stand side by side for every code of R191. -/
theorem status_fields : ∀ code < 10,
    ((BitVec.ofNat 32 code <<< 2) ||| 2#32).extractLsb' 0 2 = 2#2 ∧
      ((BitVec.ofNat 32 code <<< 2) ||| 2#32).extractLsb' 2 4 = BitVec.ofNat 4 code ∧
        ((BitVec.ofNat 32 code <<< 2) ||| 2#32).extractLsb' 6 26 = 0#26 := by
  decide

theorem Cause.code_lt (cause : Cause) : cause.code < 10 := by
  cases cause <;> simp [Cause.code]

/-- What the status interface shows of a fault record. -/
theorem status_of_faulted {s : State} {cause : Cause} {pc : Word} (h : s.run = .faulted { cause := cause, pc := pc }) :
    s.status.extractLsb' 0 2 = 2#2 ∧ s.status.extractLsb' 2 4 = BitVec.ofNat 4 cause.code ∧
      s.status.extractLsb' 6 26 = 0#26 ∧ s.faultPc = pc ∧ s.faultInfo = (cause.info0, cause.info1) := by
  have hstatus : s.status = (BitVec.ofNat 32 cause.code <<< 2) ||| 2#32 := by
    rw [State.status, h]
    rfl
  obtain ⟨hrun, hcause, hrest⟩ := status_fields cause.code cause.code_lt
  exact ⟨hstatus ▸ hrun, hstatus ▸ hcause, hstatus ▸ hrest, by rw [State.faultPc, h], by rw [State.faultInfo, h]⟩

end Sys2Proof.Machine

namespace Sys2Proof.Claims

open Sys2Proof.Machine

/-- Settles O10: an accepted image gives the reset state, whatever its words. -/
theorem resetEstablishesTheResetState : Obligations.ResetEstablishesTheResetState := by
  intro p e image ws hload
  rw [State.boot_of_loadImage hload]
  refine ⟨fun r => ?_, rfl, rfl, rfl, rfl, rfl, rfl, rfl, status_of_running rfl⟩
  fin_cases r <;> rfl

/-- Settles O11: the boot check refuses a bad length, then too many words, and nothing else. -/
theorem illFormedImagesAreRefused : Obligations.IllFormedImagesAreRefused := by
  refine fun p e image => ⟨fun hbad => boot_refused (loadImage_of_bad_length hbad) e, fun n hlen => ?_⟩
  obtain ⟨ws, hload⟩ := loadImage_of_length (p := p.allocOk) hlen
  refine ⟨fun htoo => boot_refused (hload.trans (if_neg ?_)) e, fun hlt hfits => ?_⟩
  · rintro (rfl | ⟨hlt, hadm⟩) <;> obtain hge | ⟨hpos, hno⟩ := htoo
    · omega
    · omega
    · exact Nat.not_lt.2 hge hlt
    · cases hno.symm.trans hadm
  · rw [State.boot_of_loadImage (hload.trans (if_pos (hfits.imp_right fun hadm => ⟨hlt, hadm⟩)))]
    rfl

/-- Settles O12: the empty boot, evaluated. -/
theorem resetIsTheEmptyBootAndMeetsTheInvariant : Obligations.ResetIsTheEmptyBootAndMeetsTheInvariant := by
  have hboot : State.reset = State.boot .standard .quiet [] := rfl
  exact ⟨hboot, hboot ▸ boot_inv .standard .quiet []⟩

/-- Settles O47: each row of R191 is what `Cause.code` and the info words say of its cause. -/
theorem statusShowsTheRunState : Obligations.StatusShowsTheRunState := by
  refine fun s => ⟨status_of_running, status_of_halted, fun pc v u row hrow hrun => ?_⟩
  have hview := status_of_faulted hrun
  simp only [List.mem_cons, List.not_mem_nil, or_false] at hrow
  rcases hrow with rfl | rfl | rfl | rfl | rfl | rfl | rfl | rfl | rfl <;> exact hview

/-- Settles O49: segment 0 is canonical and the table holds nothing else, whether the image is accepted or not. -/
theorem everyBootMeetsTheInvariant : Obligations.EveryBootMeetsTheInvariant :=
  boot_inv

/-- Settles O50: a move changes the environment's part alone, or resets. -/
theorem environmentMovesKeepTheInvariant : Obligations.EnvironmentMovesKeepTheInvariant := by
  refine fun m s hinv => ⟨envMove_inv hinv m, fun hreset => ?_⟩
  obtain ⟨e, he⟩ := envMove_eq_of_ne_reset hreset s
  rw [he]
  exact ⟨rfl, rfl, rfl, rfl, rfl, rfl⟩

/-- Settles O51: by induction along the run. -/
theorem everyReachableStateMeetsTheInvariant : Obligations.EveryReachableStateMeetsTheInvariant :=
  fun _ => Reachable.inv

end Sys2Proof.Claims
end

section
/-! PROOFS about the segment store over several operations: how many segments are live (10_state.md R22 item 5), what
Allocate returns (20_memory.md R38, R39), and that a loaded program is a copy (R42). -/

namespace Sys2Proof.Machine

open Claims

/-! ## The number of live segments -/

/-- The slots of a table that are tombstones, in order. -/
def Store.tombstones (st : Store) : List Nat := st.table.findIdxs Option.isNone

theorem Store.mem_tombstones {st : Store} {k : Nat} : k ∈ st.tombstones ↔ st.table[k]? = some none := by
  rw [Store.tombstones, List.mem_findIdxs_iff_exists_getElem_pos, List.getElem?_eq_some_iff]
  simp only [Option.isNone_iff_eq_none]

/-- A table's slots are its live segments and its tombstones. -/
theorem Store.liveCount_add_tombstones (st : Store) : st.liveCount + st.tombstones.length = st.table.length := by
  have hnot : (Option.isNone : Option Segment → Bool) = fun o => decide ¬o.isSome = true := by
    funext o
    cases o <;> rfl
  rw [Store.liveCount, Store.tombstones, List.length_findIdxs, hnot, ← List.length_eq_countP_add_countP]

/-- The pool lists the tombstones, each once (R22 items 1, 3 and 4). -/
theorem Store.Inv.pool_perm_tombstones {st : Store} (h : st.Inv) : (st.pool.map BitVec.toNat).Perm st.tombstones := by
  obtain ⟨-, hpool, htomb, hnodup, hlen, -⟩ := h
  have hnodup' : (st.pool.map BitVec.toNat).Nodup := hnodup.map fun _ _ => BitVec.eq_of_toNat_eq
  refine (List.perm_ext_iff_of_nodup hnodup' List.nodup_findIdxs).2 fun k => ?_
  rw [← Store.tombstones, Store.mem_tombstones, List.mem_map]
  constructor
  · rintro ⟨id, hid, rfl⟩
    exact hpool id hid
  · intro hk
    exact ⟨_, htomb k (List.getElem?_eq_some_iff.1 hk).1 hk, ofNat_slot_toNat hlen hk⟩

/-! ## What Allocate returns -/

/-- The next identifier is not live: it is a tombstone's, or no slot's yet. -/
theorem allocate_not_live {p : AllocPolicy} {st st' : Store} {n id : Word} (h : st.Inv)
    (ha : allocate p st n = .ok (id, st')) : st.live id = false := by
  obtain ⟨-, hpool, -⟩ := h
  obtain ⟨-, ⟨rest, hrest, -⟩ | ⟨-, hlt, rfl, -⟩⟩ := allocate_eq_ok.1 ha
  · exact hpool.live_eq_false (hrest ▸ List.mem_cons_self)
  · refine Store.live_eq_false_iff.2 ?_
    rw [Store.segment?, BitVec.toNat_ofNat, Nat.mod_eq_of_lt hlt, List.getElem?_eq_none le_rfl, Option.join_none]

/-- The identifier returned names a fresh segment of n words. -/
theorem allocate_segment?_self {p : AllocPolicy} {st st' : Store} {n id : Word} (h : st.Inv)
    (ha : allocate p st n = .ok (id, st')) : st'.segment? id = some (.zeroed n) := by
  obtain ⟨-, hpool, -⟩ := h
  obtain ⟨-, ⟨rest, hrest, rfl⟩ | ⟨-, hlt, rfl, rfl⟩⟩ := allocate_eq_ok.1 ha
  · have hslot := hpool id (hrest ▸ List.mem_cons_self)
    exact Store.segment?_setSlot_self (List.getElem?_eq_some_iff.1 hslot).1 _
  · rw [Store.segment?_eq_some, BitVec.toNat_ofNat, Nat.mod_eq_of_lt hlt, List.getElem?_concat_length]

/-- After a deallocation the freed identifier is the next one. -/
theorem nextId_of_deallocate {st st' : Store} {id : Word} (hd : deallocate st id = .ok st') : nextId st' = id := by
  rw [nextId, (deallocate_pool_length hd).1, List.head?_cons, Option.getD_some]

/-- An allocation undoes what a pool grown by one identifier changed for those that follow. -/
theorem allocate_pool_length {p : AllocPolicy} {st st' : Store} {n id top : Word} {rest : List Word}
    (hp : st.pool = top :: rest) (ha : allocate p st n = .ok (id, st')) :
    st'.pool = rest ∧ st'.table.length = st.table.length := by
  obtain ⟨rfl, rfl⟩ := allocate_of_pool_cons hp ha
  exact ⟨rfl, List.length_set⟩

/-- The next identifier depends on the pool and the table's length alone (R21). -/
theorem nextId_congr {st st' : Store} (hpool : st'.pool = st.pool) (hlen : st'.table.length = st.table.length) :
    nextId st' = nextId st := by
  rw [nextId, nextId, hpool, hlen]

/-! ## A loaded program (R42) -/

/-- Segment 0 is what segment id is. -/
theorem replaceProgram_segment?_zero {p : AllocPolicy} {st st' : Store} {id : Word} (h0 : id ≠ 0#32)
    (hlen : 0 < st.table.length) (hr : replaceProgram p st id = .ok st') :
    ∃ g, st.segment? id = some g ∧ st'.segment? 0#32 = some g := by
  obtain ⟨g, hg, -, rfl⟩ := (replaceProgram_eq_ok h0).1 hr
  exact ⟨g, hg, Store.segment?_setSlot_self (id := 0#32) hlen _⟩

end Sys2Proof.Machine

namespace Sys2Proof.Claims

open Sys2Proof.Machine

/-- Settles O52: the pool is as long as the list of tombstones. -/
theorem liveSegmentsAndPoolFillTheTable : Obligations.LiveSegmentsAndPoolFillTheTable := by
  intro st hinv
  have hlength : st.pool.length = st.tombstones.length :=
    (List.length_map _).symm.trans (Store.Inv.pool_perm_tombstones hinv).length_eq
  rw [hlength, Store.liveCount_add_tombstones]

/-- Settles O56: identifier 0 is live, so the identifier returned, which was not, is another. -/
theorem allocatedSegmentsAreFreshAndZero : Obligations.AllocatedSegmentsAreFreshAndZero := by
  intro p st st' n id hinv ha
  have hdead := allocate_not_live hinv ha
  have hseg := allocate_segment?_self hinv ha
  obtain ⟨hzero, -⟩ := hinv
  refine ⟨allocate_eq_nextId ha, ?_, hdead, ⟨_, hseg, rfl⟩, fun off hoff => ?_⟩
  · rintro rfl
    cases hzero.symm.trans hdead
  · exact memRead_eq_ok.2 ⟨_, hseg, hoff, rfl⟩

/-- Settles O57: the two identifiers are popped in reverse, and leave the pool and the table's length as they were. -/
theorem freedIdentifiersAreReusedLastFirst : Obligations.FreedIdentifiersAreReusedLastFirst := by
  intro p st s1 s2 s3 s4 s5 a b n1 n2 n3 i1 i2 i3 _ hda hdb ha1 ha2 ha3
  obtain ⟨hpool1, hlen1⟩ := deallocate_pool_length hda
  obtain ⟨hpool2, hlen2⟩ := deallocate_pool_length hdb
  obtain ⟨hpool3, hlen3⟩ := allocate_pool_length hpool2 ha1
  obtain ⟨hpool4, hlen4⟩ := allocate_pool_length (hpool3.trans hpool1) ha2
  have hlen : s4.table.length = st.table.length := by rw [hlen4, hlen3, hlen2, hlen1]
  refine ⟨?_, ?_, ?_⟩
  · rw [allocate_eq_nextId ha1, nextId_of_deallocate hdb]
  · rw [allocate_eq_nextId ha2, nextId_congr hpool3 (hlen3.trans hlen2), nextId_of_deallocate hda]
  · rw [allocate_eq_nextId ha3, nextId_congr hpool4 hlen]

/-- Settles O59: segment 0 is the same data under another identifier, and a store touches one identifier's segment. -/
theorem loadedProgramsAreIndependentCopies : Obligations.LoadedProgramsAreIndependentCopies := by
  intro p st st' st'' k off v hk hlen hr
  obtain ⟨g, hg, hg0⟩ := replaceProgram_segment?_zero hk hlen hr
  obtain ⟨-, -, hothers⟩ := replaceProgram_frame hk hr
  refine ⟨fun o => ?copy, fun o => memRead_congr (hothers k hk) o,
    fun hw o => memRead_congr (memWrite_segment?_of_ne hw hk.symm) o,
    fun hw o => memRead_congr (memWrite_segment?_of_ne hw hk) o⟩
  case copy =>
    rw [memRead_of_segment? hg0, memRead_of_segment? hg]
    split
    · rfl
    · rfl

end Sys2Proof.Claims
end
